-- ==== Sys2Proof/Word.lean ====
section
/-!
DEFINITION. The words MOVDEC reads: bytes and 16-bit quantities, and the two operand widths
(`00_scope.md` rules R4 to R6).
-/

namespace Sys2Proof

/-- One stream element, 0 to 255 (R6 `Byte`). -/
abbrev Byte := BitVec 8

/-- A two-byte quantity, 0 to 65535 (R6 `U16`). -/
abbrev U16 := BitVec 16

/-- The operand width (R19): `byte` when `w = 0`, `word` when `w = 1` (R4). -/
inductive Width where
  | byte
  | word
  deriving DecidableEq, Repr

end Sys2Proof
end

