-- ==== Sys2Proof/Config.lean ====
section
/-!
DEFINITION. What an implementation or the host fixes: the policy for unsupported bytes, the sink's answers, and the two
free values of the model. A free value is an opaque constant: no proof can learn what it is.
-/

namespace Sys2Proof

/-- The one configuration input (R17): what an `UnsupportedInstruction` does to the run. -/
inductive Policy where
  /-- `ABORT`: the run halts. -/
  | abort
  /-- `SKIP`: the run continues at the next byte. -/
  | skip
  deriving DecidableEq, Repr, Inhabited

/-- The sink's answer to one `emit` (R189). -/
inductive SinkAnswer where
  /-- The sink accepted the line. -/
  | ok
  /-- The sink reported a write failure (`SinkFailure`). -/
  | fail
  deriving DecidableEq, Repr, Inhabited

/-- FREE VALUE (R189, U10; notes/assumptions/3.md). The sink's answer to its `n`-th `emit`, where the state holds no
answer of the host's. Nothing constrains it. -/
opaque Config.sinkAnswer : Nat → SinkAnswer

/-- FREE VALUE (R4, R17, D5; notes/assumptions/4.md). The parameter `POLICY` of a run in whose state it is not set; only a
state that no run reaches reads it. -/
opaque Config.openPolicy : Policy

end Sys2Proof
end

