-- ==== Sys2Proof/Syntax.lean ====
section
/-!
DEFINITION. The instructions as syntax: one constructor of `Instr` per row of spec/opcode_table.json, each field of an encoding
as the bits it holds (`30_encoding.md` rules R62 to R71). What a field means is the machine's business.
-/

namespace Sys2Proof

/-- The five MOV forms and the default (R62, R130). -/
inductive Form where
  | rmReg
  | immRm
  | immReg
  | memAcc
  | accMem
  | unsupported
  deriving DecidableEq, Repr

/-- The `mod` and `rm` fields of a ModR/M byte with the bytes they call for (R67, R68). -/
inductive Rm where
  /-- `mod = 0b11`: the register `rm`. -/
  | reg (rm : BitVec 3)
  /-- `mod = 0b00`, `rm` not `0b110`: a base expression alone. -/
  | noDisp (rm : BitVec 3)
  /-- `mod = 0b00`, `rm = 0b110`: a 16-bit direct address. -/
  | direct (addr : U16)
  /-- `mod = 0b01`: a base expression and a signed 8-bit displacement. -/
  | disp8 (rm : BitVec 3) (disp : Byte)
  /-- `mod = 0b10`: a base expression and a signed 16-bit displacement. -/
  | disp16 (rm : BitVec 3) (disp : U16)
  deriving DecidableEq, Repr

/-- The instructions of MOVDEC, in the order of spec/opcode_table.json. -/
inductive Instr where
  /-- `88`: form `RM_REG`, `d = 0`, `w = 0` (R131). -/
  | movRm8R8 (reg : BitVec 3) (rm : Rm)
  /-- `89`: form `RM_REG`, `d = 0`, `w = 1` (R131). -/
  | movRm16R16 (reg : BitVec 3) (rm : Rm)
  /-- `8A`: form `RM_REG`, `d = 1`, `w = 0` (R131). -/
  | movR8Rm8 (reg : BitVec 3) (rm : Rm)
  /-- `8B`: form `RM_REG`, `d = 1`, `w = 1` (R131). -/
  | movR16Rm16 (reg : BitVec 3) (rm : Rm)
  /-- `C6`: form `IMM_RM`, `w = 0` (R133); `ext` is `b2[5:3]`, which no operand depends on (R78). -/
  | movRm8Imm8 (ext : BitVec 3) (rm : Rm) (imm : Byte)
  /-- `C7`: form `IMM_RM`, `w = 1` (R133); `ext` is `b2[5:3]`, which no operand depends on (R78). -/
  | movRm16Imm16 (ext : BitVec 3) (rm : Rm) (imm : U16)
  /-- `B0` to `B7`: form `IMM_REG`, `w = 0` (R134). -/
  | movR8Imm8 (reg : BitVec 3) (imm : Byte)
  /-- `B8` to `BF`: form `IMM_REG`, `w = 1` (R134). -/
  | movR16Imm16 (reg : BitVec 3) (imm : U16)
  /-- `A0`: form `MEM_ACC`, `w = 0` (R135). -/
  | movAlMem (addr : U16)
  /-- `A1`: form `MEM_ACC`, `w = 1` (R135). -/
  | movAxMem (addr : U16)
  /-- `A2`: form `ACC_MEM`, `w = 0` (R136). -/
  | movMemAl (addr : U16)
  /-- `A3`: form `ACC_MEM`, `w = 1` (R136). -/
  | movMemAx (addr : U16)
  /-- The default row: a leading byte of no MOV form, consumed alone (R75, R137). -/
  | unsupported (b1 : Byte)
  deriving DecidableEq, Repr

end Sys2Proof
end

