-- ==== Sys2Proof/Machine/State.lean ====
section
/-!
DEFINITION. The state of MOVDEC (`10_state.md`), the reasons a step can stop without a next state, and the state after power-on.
The five errors of `60_exceptions.md` are not among those reasons: raising one is a next state.
-/

namespace Sys2Proof.Machine

/-- The stream space (R40): cells in strictly rising order of address; an address that is not listed has no value. -/
abbrev Memory := List Host.Cell

/-- The canonical form of a memory: addresses strictly rising. No listed cell can equal what an unlisted address reads as,
since such an address has no value. -/
abbrev Memory.Wf (m : Memory) : Prop := m.Pairwise fun c d => c.1 < d.1

/-- The decode latches (R18). They hold the fields of the instruction being decoded; `none` is "no value". -/
structure Latches where
  start : Option Nat
  b1 : Option Byte
  form : Option Form
  d : Option (BitVec 1)
  w : Option (BitVec 1)
  b2 : Option Byte
  mod : Option (BitVec 2)
  reg : Option (BitVec 3)
  rm : Option (BitVec 3)
  disp : Option Int
  addr : Option U16
  imm : Option Int
  deriving DecidableEq, Repr

/-- Every latch `none`: the latches at the start of a step and after a reset (R18, R29). -/
def Latches.empty : Latches :=
  { start := none, b1 := none, form := none, d := none, w := none, b2 := none, mod := none, reg := none, rm := none,
    disp := none, addr := none, imm := none }

/-- The error kinds (R200). -/
inductive ErrKind where
  | unsupportedInstruction
  | truncatedStream
  | loadFailure
  | sinkFailure
  | cursorOverrun
  deriving DecidableEq, Repr

/-- An error record (R14). Its field `code` is a function of `kind` (`ErrRec.code`). -/
structure ErrRec where
  kind : ErrKind
  /-- The index of the leading byte (`START`). -/
  start : Option Nat
  /-- The leading byte (`B1`). -/
  byte : Option Byte
  /-- `at`: the value of `CUR` when the error was raised. -/
  atCur : Option Nat
  /-- For `TruncatedStream`: the bytes the read group needed. -/
  need : Option Nat
  /-- For `TruncatedStream`: the bytes that were left. -/
  avail : Option Nat
  deriving DecidableEq, Repr

/-- The run state of the decode loop (R13). -/
inductive Run where
  | idle
  | ready
  | done
  | halted
  deriving DecidableEq, Repr

/-- The part of the state the ByteCursor and the decoder work on: the stream, the cursor and the latches. -/
structure Cursor where
  stream : Memory
  len : Nat
  cur : Nat
  latches : Latches
  deriving DecidableEq, Repr

/-- Why a read of the cursor did not go on. -/
inductive Stop where
  /-- `need n` found only `avail` bytes (R94). -/
  | truncated (need avail : Nat)
  /-- `next_byte` was called at the end of the stream (R93). -/
  | cursorOverrun
  /-- The stream holds no byte at an index below `LEN`; no run reaches this (notes/assumptions/6.md). -/
  | unbacked (addr : Nat)
  deriving DecidableEq, Repr

/-- The state of MOVDEC (R10), the configuration input `POLICY` (R17), and two fields of the model's own that hold the sink's
answers (R189; notes/assumptions/3.md). -/
structure State where
  /-- `S` (R11). -/
  stream : Memory
  /-- `LEN` (R11). -/
  len : Nat
  /-- `CUR` (R12): the index of the next byte to be read. -/
  cur : Nat
  /-- `RUN` (R13). -/
  run : Run
  /-- `ERR` (R14). -/
  err : Option ErrRec
  /-- `LOG` (R15), oldest first. -/
  log : List ErrRec
  /-- `UCOUNT` (R15). -/
  uCount : Nat
  /-- `OUT` (R16), oldest line first, without line breaks. -/
  out : List String
  /-- The decode latches (R18). -/
  latches : Latches
  /-- `POLICY` (R17, R22); `none` is the spec's own "not set" (R29). -/
  policy : Option Policy
  /-- MODEL'S OWN: answers the sink will give, next one first. -/
  sinkAnswers : List SinkAnswer
  /-- MODEL'S OWN: how many answers the sink has given; past the listed ones the answer is the free value
  `Config.sinkAnswer` at this number. -/
  sinkSeq : Nat
  deriving DecidableEq, Repr

/-- A stop in a state that no run reaches. -/
inductive Fault where
  /-- Raised by `step` when the stream lists no byte at `addr`, an index below `LEN`: R41 defines no value there. Safe: the
  machine stops where the spec says nothing, and no state that meets `State.Inv` gets here. -/
  | streamUnbacked (addr : Nat)
  deriving DecidableEq, Repr

/-- A transaction or instruction that the model gives no meaning. All are safe: nothing is proved of a state after one. -/
inductive Refusal where
  /-- Raised by an arm of `exec` whose instruction has no meaning yet. -/
  | notModelled (mnemonic : String)
  /-- Raised by `step` outside `READY` (R180, U5): no step is enabled there and the state does not change. -/
  | stepNotEnabled (run : Run)
  /-- Raised by the load transactions in `READY` (R191, U5). -/
  | loadDuringRun
  /-- Raised by the `cfg` transaction in `READY` (R17, R212, U5). -/
  | cfgDuringRun
  /-- Raised by a load of bytes while `POLICY` is not set (R17, U5). -/
  | policyNotSet
  deriving DecidableEq, Repr

/-- What a step or a transaction answers. -/
abbrev Answer := Host.Outcome State Fault Refusal

/-- The state after power-on (R29, R230). `S`, `LEN` and `CUR`, which the spec leaves unspecified and unread there, are the
empty stream, 0 and 0 (DESIGN CHOICE, notes/assumptions/2.md); the sink's fields are the model's own
(DESIGN CHOICE, notes/assumptions/3.md). -/
def State.reset : State :=
  { stream := [], len := 0, cur := 0, run := .idle, err := none, log := [], uCount := 0, out := [],
    latches := Latches.empty, policy := none, sinkAnswers := [], sinkSeq := 0 }

end Sys2Proof.Machine
end

