-- ==== Sys2Proof/Machine/Memory.lean ====
section
/-!
DEFINITION. The stream space: reading one byte and laying a loaded sequence out as memory (`20_memory.md`). Nothing writes it
(R43).
-/

namespace Sys2Proof.Machine

/-- `MemRead(addr, 1)` (R41): the byte at an index, or no value where the stream has none (R54). -/
def Memory.read : Memory → Nat → Option Byte
  | [], _ => none
  | (k, b) :: m, a => if k = a then some b else Memory.read m a

/-- A byte sequence as memory, its first byte at index `k`. -/
def Memory.ofBytesFrom : Nat → List Byte → Memory
  | _, [] => []
  | k, b :: bs => (k, b) :: Memory.ofBytesFrom (k + 1) bs

/-- The stream a `load` of these bytes leaves (R91): index 0 first. -/
def Memory.ofBytes (bs : List Byte) : Memory := Memory.ofBytesFrom 0 bs

/-- Every index below `len` has a byte, and no other index has (R11, R47). -/
def Memory.backs (m : Memory) (len : Nat) : Bool := decide (m.map Prod.fst = List.range len)

end Sys2Proof.Machine
end

