-- ==== Sys2Proof/Machine/Flags.lean ====
section
/-!
DEFINITION. MOVDEC has no condition codes and no flag that one step writes and a later one tests (R21). Its one-bit values are
the direction bit `D` and the width bit `W` of the leading byte, which live inside one step; this file says which bits they are
and what `W` means (R74).
-/

namespace Sys2Proof.Machine

/-- The direction bit of the forms that have one: `b1[1]` (R63, R66, R74). -/
def directionBit (b1 : Byte) : BitVec 1 := b1.extractLsb' 1 1

/-- The width bit: `b1[3]` in form `IMM_REG`, `b1[0]` in every other supported form (R74). -/
def widthBit (form : Form) (b1 : Byte) : BitVec 1 :=
  match form with
  | .immReg => b1.extractLsb' 3 1
  | _ => b1.extractLsb' 0 1

/-- The operand width a width bit selects (R4): 0 is byte, 1 is word. -/
def widthOf (w : BitVec 1) : Width := if w = 1#1 then .word else .byte

/-- The width bit of an operand width (R101). -/
def widthToBit : Width → BitVec 1
  | .byte => 0#1
  | .word => 1#1

end Sys2Proof.Machine
end

