-- ==== Sys2Proof/Machine/Operands.lean ====
section
/-!
DEFINITION. Every operand form: how values are assembled from instruction bytes (R71), the fields and displacement bytes of a
ModR/M operand (R67, R68), the operand it is (R111 to R115), the record of a decoded instruction (R19), and what the decoder
latches for each form (R18).
-/

namespace Sys2Proof.Machine

/-! ### Values -/

/-- `sext_8` (R6). -/
def sext8 (v : Byte) : Int := if v.toNat < 128 then (v.toNat : Int) else (v.toNat : Int) - 256

/-- `sext_16` (R6). -/
def sext16 (v : U16) : Int := if v.toNat < 32768 then (v.toNat : Int) else (v.toNat : Int) - 65536

/-- Two bytes of the stream, the low one first, as the quantity `lo + 256 * hi` (R42). -/
def littleEndian (lo hi : Byte) : U16 := hi ++ lo

/-- The low byte of a two-byte quantity. -/
def lowByte (v : U16) : Byte := v.extractLsb' 0 8

/-- The high byte of a two-byte quantity. -/
def highByte (v : U16) : Byte := v.extractLsb' 8 8

/-- The bytes of a two-byte quantity in stream order (R42). -/
def bytesOf (v : U16) : List Byte := [lowByte v, highByte v]

/-! ### The record of a decoded instruction (R19) -/

/-- The displacement class of a memory operand with a base. -/
inductive DispClass where
  | noDisp
  | disp8
  | disp16
  deriving DecidableEq, Repr

/-- An operand. -/
inductive Operand where
  | reg (width : Width) (code : BitVec 3)
  | memBase (cls : DispClass) (base : BitVec 3) (disp : Int)
  | memDirect (addr : U16)
  | imm (width : Width) (value : Int)
  deriving DecidableEq, Repr

/-- The record one decode produces. -/
structure DecodedInstruction where
  mnemonic : String
  dst : Operand
  src : Operand
  sizeKw : Option Width
  deriving DecidableEq, Repr

/-- The operand is `MemBase` or `MemDirect`. -/
def operandIsMemory : Operand → Bool
  | .reg _ _ => false
  | .memBase _ _ _ => true
  | .memDirect _ => true
  | .imm _ _ => false

/-! ### The ModR/M operand -/

/-- The `mod` field (R67). -/
def rmModBits : Rm → BitVec 2
  | .reg _ => 0b11#2
  | .noDisp _ => 0b00#2
  | .direct _ => 0b00#2
  | .disp8 _ _ => 0b01#2
  | .disp16 _ _ => 0b10#2

/-- The `rm` field (R67). -/
def rmBits : Rm → BitVec 3
  | .reg rm => rm
  | .noDisp rm => rm
  | .direct _ => 0b110#3
  | .disp8 rm _ => rm
  | .disp16 rm _ => rm

/-- The ModR/M byte `mod reg rm` (R63, R67). -/
def modrmByte (reg : BitVec 3) (rm : Rm) : Byte := rmModBits rm ++ reg ++ rmBits rm

/-- The bytes between `b2` and the immediate or the end of the instruction (R68), low byte first. -/
def rmTail : Rm → List Byte
  | .reg _ => []
  | .noDisp _ => []
  | .direct a => bytesOf a
  | .disp8 _ d => [d]
  | .disp16 _ d => bytesOf d

/-- `dl(mod, rm)` (R68): how many those bytes are. -/
def dispLength (mod : BitVec 2) (rm : BitVec 3) : Nat :=
  if mod = 0b00#2 then (if rm = 0b110#3 then 2 else 0)
  else if mod = 0b01#2 then 1
  else if mod = 0b10#2 then 2
  else 0

/-- The displacement length of an operand. -/
def rmDispLength (rm : Rm) : Nat := dispLength (rmModBits rm) (rmBits rm)

/-- `il(w) = 1 + w` (R69). -/
def immLength : Width → Nat
  | .byte => 1
  | .word => 2

/-- The `rm` operand under the width `w` (R111 to R115): a displacement is sign-extended, an address is not. -/
def rmOperand (w : Width) : Rm → Operand
  | .reg rm => .reg w rm
  | .noDisp rm => .memBase .noDisp rm 0
  | .direct a => .memDirect a
  | .disp8 rm d => .memBase .disp8 rm (sext8 d)
  | .disp16 rm d => .memBase .disp16 rm (sext16 d)

/-- The size keyword of form `IMM_RM`: present exactly when the destination is memory (R133, R168). -/
def sizeKeywordFor (w : Width) (dst : Operand) : Option Width := if operandIsMemory dst then some w else none

/-! ### What the decoder latches (R18) -/

/-- The latches after dispatch on a supported or unsupported leading byte (R130), but for `D`, `W` and `REG`. -/
def latchedLeading (start : Nat) (b1 : Byte) (form : Form) : Latches :=
  { Latches.empty with start := some start, b1 := some b1, form := some form }

/-- The latches a ModR/M operand adds (R110, R113 to R115). -/
def latchedModrm (reg : BitVec 3) (rm : Rm) (l : Latches) : Latches :=
  let m := { l with b2 := some (modrmByte reg rm), mod := some (rmModBits rm), reg := some reg, rm := some (rmBits rm) }
  match rm with
  | .reg _ => m
  | .noDisp _ => m
  | .direct a => { m with addr := some a }
  | .disp8 _ d => { m with disp := some (sext8 d) }
  | .disp16 _ d => { m with disp := some (sext16 d) }

end Sys2Proof.Machine
end

