-- ==== Sys2Proof/Machine/Cursor.lean ====
section
/-!
DEFINITION. The ByteCursor (`40_bytecursor.md`): the micro-operations the decoder is built from. A micro-operation answers a value
and the cursor after it, or the reason it stopped and the cursor as it then stands (R7: the writes before a raise stand).
-/

namespace Sys2Proof.Machine

/-- A computation over the cursor that can stop. -/
abbrev Decoder (α : Type) := EStateM Stop Cursor α

/-- `has_more()` (R92). -/
def hasMore (c : Cursor) : Bool := decide (c.cur < c.len)

/-- `next_byte()` (R93): the byte at the cursor, which advances by one. At the end of the stream it is the contract violation
`CursorOverrun`, with no value and the cursor unmoved. -/
def nextByte : Decoder Byte := fun c =>
  if c.len ≤ c.cur then .error .cursorOverrun c
  else
    match Memory.read c.stream c.cur with
    | some b => .ok b { c with cur := c.cur + 1 }
    | none => .error (.unbacked c.cur) c

/-- `need(n)` (R94): the next read group of `n` bytes is wholly in the stream, or `TruncatedStream`. -/
def need (n : Nat) : Decoder Unit := fun c =>
  if c.len - c.cur < n then .error (.truncated n (c.len - c.cur)) c else .ok () c

/-- `read16()` (R95): two bytes, the low one first. -/
def read16 : Decoder U16 := do
  let lo ← nextByte
  let hi ← nextByte
  return littleEndian lo hi

/-- The value of `CUR`. -/
def cursorIndex : Decoder Nat := fun c => .ok c.cur c

/-- Writes latches. -/
def latch (g : Latches → Latches) : Decoder Unit := fun c => .ok () { c with latches := g c.latches }

/-- A cursor at index 0 of a sequence of bytes, the latches empty (R91). -/
def cursorOver (bs : List Byte) : Cursor :=
  { stream := Memory.ofBytes bs, len := bs.length, cur := 0, latches := Latches.empty }

end Sys2Proof.Machine
end

