-- ==== Sys2Proof/Machine/Rom.lean ====
section
/-!
DEFINITION. The two constant lookup tables of the operand lookup ROM (`41_operand_rom.md`). They are configuration, not state:
no step writes them (R104).
-/

namespace Sys2Proof.Machine

/-- The `REGNAME` ROM, entry `k` at position `k` (R100). -/
def regNameRom : Vector String 16 :=
  #v["al", "cl", "dl", "bl", "ah", "ch", "dh", "bh", "ax", "cx", "dx", "bx", "sp", "bp", "si", "di"]

/-- The `BASE` ROM, entry `rm` at position `rm` (R102). Entry 1 is the source's; the spec supplies the other seven from the
8086's table (its G1, D16; PRESUMED, notes/assumptions/12.md). -/
def baseRom : Vector String 8 :=
  #v["bx + si", "bx + di", "bp + si", "bp + di", "si", "di", "bp", "bx"]

/-- `register_name(width, code) = REGNAME[8*w + code]` (R101): the width bit is the high bit of the 4-bit key. -/
def registerName (w : Width) (code : BitVec 3) : String :=
  let key : BitVec 4 := widthToBit w ++ code
  regNameRom.get key.toFin

/-- `base_expression(rm) = BASE[rm]` (R102, R103). -/
def baseExpression (rm : BitVec 3) : String := baseRom.get rm.toFin

end Sys2Proof.Machine
end

