-- ==== Sys2Proof/Machine/Render.lean ====
section
/-!
DEFINITION. The text of a decoded instruction (`44_render.md`), the header lines (R184) and the line break (R185). Rendering reads no
state.
-/

namespace Sys2Proof.Machine

/-- One decimal digit. -/
def digit : Nat → String
  | 0 => "0"
  | 1 => "1"
  | 2 => "2"
  | 3 => "3"
  | 4 => "4"
  | 5 => "5"
  | 6 => "6"
  | 7 => "7"
  | 8 => "8"
  | _ => "9"

/-- The digits of `n`, most significant first, with at most `fuel + 1` of them (R160). -/
def decDigits : Nat → Nat → String
  | 0, n => digit n
  | fuel + 1, n => if n < 10 then digit n else decDigits fuel (n / 10) ++ digit (n % 10)

/-- `dec(n)` for `n >= 0` (R160); `n` is fuel enough, since each division by ten makes it smaller. -/
def decNat (n : Nat) : String := decDigits n n

/-- `dec(n)` (R160): a negative number is `-` and at once its magnitude. -/
def dec : Int → String
  | .ofNat n => decNat n
  | .negSucc n => "-" ++ decNat (n + 1)

/-- `abs(n)` (R6, D26). -/
def magnitude (n : Int) : Nat := n.natAbs

/-- A base with a displacement that is written (R164, R165): the sign is a token of its own, the number the magnitude. -/
def renderBaseDisp (base : BitVec 3) (d : Int) : String :=
  if 0 ≤ d then "[" ++ baseExpression base ++ " + " ++ decNat (magnitude d) ++ "]"
  else "[" ++ baseExpression base ++ " - " ++ decNat (magnitude d) ++ "]"

/-- `render_op` (R162 to R167). A zero displacement is omitted in the 8-bit class and written in the 16-bit class. -/
def renderOp : Operand → String
  | .reg w code => registerName w code
  | .memBase .noDisp b _ => "[" ++ baseExpression b ++ "]"
  | .memBase .disp8 b d => if d = 0 then "[" ++ baseExpression b ++ "]" else renderBaseDisp b d
  | .memBase .disp16 b d => renderBaseDisp b d
  | .memDirect a => "[" ++ decNat a.toNat ++ "]"
  | .imm _ v => dec v

/-- The size keyword and its space, or nothing (R168). -/
def keyword : Option Width → String
  | none => ""
  | some .byte => "byte "
  | some .word => "word "

/-- `render` (R169): the line of an instruction. -/
def render (i : DecodedInstruction) : String :=
  i.mnemonic ++ " " ++ renderOp i.dst ++ ", " ++ keyword i.sizeKw ++ renderOp i.src

/-- The first header line (R184). -/
def headerDirective : String := "bits 16"

/-- The second header line (R184). -/
def headerBlank : String := ""

/-- `LINE_BREAK`: one LF (R4, R185, D10). -/
def lineBreak : String := "\n"

/-- The character stream a sink receives for a sequence of lines (R184, R185). -/
def asCharacters : List String → String
  | [] => ""
  | line :: lines => line ++ lineBreak ++ asCharacters lines

end Sys2Proof.Machine
end

