-- ==== Sys2Proof/Machine/Ops.lean ====
section
/-!
DEFINITION. The named operations of the machine: raising an error (`60_exceptions.md` rule R208), emitting a line (`45_loop_emitter.md`
rule R185), completing an instruction, and what a stopped read does. There is no return from an error (R210), so there is no
operation for one.
-/

namespace Sys2Proof.Machine

/-- The numeric code of an error kind (R200). -/
def errCode : ErrKind → Nat
  | .unsupportedInstruction => 1
  | .truncatedStream => 2
  | .loadFailure => 3
  | .sinkFailure => 4
  | .cursorOverrun => 5

/-- The policy of the run (R17). A state that no run reaches may have none set; the parameter is then free
(notes/assumptions/4.md). -/
def policyInForce (s : State) : Policy := s.policy.getD Config.openPolicy

/-- The error does not end the run: an `UnsupportedInstruction` under `SKIP` (R201). -/
def isSkipped (kind : ErrKind) (s : State) : Bool :=
  decide (kind = .unsupportedInstruction) && decide (policyInForce s = .skip)

/-- TAKING AN ERROR (R208, the `on raise` clause of R181). The record goes to `LOG` (the event port's reports are `LOG`'s
appends, notes/assumptions/14.md); an `UnsupportedInstruction` is counted; a fatal error sets `ERR` and halts the run. -/
def raise (rec : ErrRec) (s : State) : State :=
  { s with
    log := s.log ++ [rec]
    uCount := if rec.kind = .unsupportedInstruction then s.uCount + 1 else s.uCount
    err := if isSkipped rec.kind s then s.err else some rec
    run := if isSkipped rec.kind s then s.run else .halted }

/-- The sink's answer to the next `emit` (R189): the first of the answers the state holds, or a free one
(notes/assumptions/3.md). -/
def sinkAnswer (s : State) : SinkAnswer :=
  match s.sinkAnswers with
  | a :: _ => a
  | [] => Config.sinkAnswer s.sinkSeq

/-- The sink has given an answer. -/
def answered (s : State) : State := { s with sinkAnswers := s.sinkAnswers.tail, sinkSeq := s.sinkSeq + 1 }

/-- The record of a `SinkFailure` (R14, R185): `START` and `B1`, which no line of the header has, and the value of `CUR`, for a
header line too (notes/assumptions/9.md). -/
def sinkFailureRecord (s : State) : ErrRec :=
  { kind := .sinkFailure, start := s.latches.start, byte := s.latches.b1, atCur := some s.cur, need := none, avail := none }

/-- `emit(line)` (R185): the line is offered to the sink; it is in `OUT` exactly when the sink accepted it (R189). -/
def emit (line : String) (s : State) : State :=
  match sinkAnswer s with
  | .ok => { answered s with out := s.out ++ [line] }
  | .fail => raise (sinkFailureRecord s) (answered s)

/-- The cursor and the latches after an instruction of `n` bytes whose fields are latched (R120). -/
def consume (n : Nat) (latches : Latches) (s : State) : State := { s with cur := s.cur + n, latches := latches }

/-- The end of a MOV's step (R181): its bytes are consumed, its fields latched, and its line emitted. -/
def complete (n : Nat) (latches : Latches) (i : DecodedInstruction) (s : State) : State :=
  emit (render i) (consume n latches s)

/-- The state with the stream, cursor and latches of a cursor. -/
def withCursor (c : Cursor) (s : State) : State :=
  { s with stream := c.stream, len := c.len, cur := c.cur, latches := c.latches }

/-- The cursor of a state. -/
def cursorOf (s : State) : Cursor := { stream := s.stream, len := s.len, cur := s.cur, latches := s.latches }

/-- The record of an `UnsupportedInstruction` (R137, R200). -/
def unsupportedRecord (start : Nat) (b1 : Byte) (atCur : Nat) : ErrRec :=
  { kind := .unsupportedInstruction, start := some start, byte := some b1, atCur := some atCur, need := none, avail := none }

/-- The record of a `TruncatedStream` (R94, R200). -/
def truncatedRecord (c : Cursor) (need avail : Nat) : ErrRec :=
  { kind := .truncatedStream, start := c.latches.start, byte := c.latches.b1, atCur := some c.cur, need := some need,
    avail := some avail }

/-- The record of a `CursorOverrun` (R14, R200). -/
def overrunRecord (c : Cursor) : ErrRec :=
  { kind := .cursorOverrun, start := none, byte := none, atCur := some c.cur, need := none, avail := none }

/-- The record of a `LoadFailure` (R14, R200). -/
def loadFailureRecord : ErrRec :=
  { kind := .loadFailure, start := none, byte := none, atCur := none, need := none, avail := none }

/-- What a stopped read does to the machine (R94, R205): the error is taken with the cursor and latches as they then stand. -/
def stopped (why : Stop) (c : Cursor) (s : State) : Answer :=
  match why with
  | .truncated need avail => .next (raise (truncatedRecord c need avail) (withCursor c s))
  | .cursorOverrun => .next (raise (overrunRecord c) (withCursor c s))
  | .unbacked addr => .fault (.streamUnbacked addr)

/-- The end of a run (R181, R183): the loop found no byte left at an instruction boundary. -/
def endRun (s : State) : State := { s with latches := Latches.empty, run := .done }

end Sys2Proof.Machine
end

