-- ==== Sys2Proof/Machine/Acc.lean ====
section
/-!
DEFINITION. MOV between the accumulator and memory: forms `MEM_ACC` (`A0`, `A1`) and `ACC_MEM` (`A2`, `A3`) (`43_mov_forms.md` rules R135,
R136). The address is two bytes for both widths (R119); the accumulator is the register of code 0 (R105).
-/

namespace Sys2Proof.Machine

/-- What an accumulator form latches (R130, R119). -/
def accLatches (start : Nat) (b1 : Byte) (form : Form) (d w : BitVec 1) (addr : U16) : Latches :=
  { latchedLeading start b1 form with d := some d, w := some w, addr := some addr }

/-- `A0`: `al` from memory. -/
def execMovAlMem (addr : U16) (s : State) : Answer :=
  .next (complete 3 (accLatches s.cur 0xA0#8 .memAcc 0#1 0#1 addr)
    { mnemonic := "mov", dst := .reg .byte 0#3, src := .memDirect addr, sizeKw := none } s)

/-- `A1`: `ax` from memory. -/
def execMovAxMem (addr : U16) (s : State) : Answer :=
  .next (complete 3 (accLatches s.cur 0xA1#8 .memAcc 0#1 1#1 addr)
    { mnemonic := "mov", dst := .reg .word 0#3, src := .memDirect addr, sizeKw := none } s)

/-- `A2`: `al` to memory. -/
def execMovMemAl (addr : U16) (s : State) : Answer :=
  .next (complete 3 (accLatches s.cur 0xA2#8 .accMem 1#1 0#1 addr)
    { mnemonic := "mov", dst := .memDirect addr, src := .reg .byte 0#3, sizeKw := none } s)

/-- `A3`: `ax` to memory. -/
def execMovMemAx (addr : U16) (s : State) : Answer :=
  .next (complete 3 (accLatches s.cur 0xA3#8 .accMem 1#1 1#1 addr)
    { mnemonic := "mov", dst := .memDirect addr, src := .reg .word 0#3, sizeKw := none } s)

end Sys2Proof.Machine
end

