-- ==== Sys2Proof/Machine/ImmReg.lean ====
section
/-!
DEFINITION. MOV, immediate to register: form `IMM_REG`, leading bytes `B0` to `BF` (`43_mov_forms.md` rule R134). The immediate is
unsigned (R118, C2).
-/

namespace Sys2Proof.Machine

/-- What form `IMM_REG` latches (R130, R118). -/
def immRegLatches (start : Nat) (b1 : Byte) (w : BitVec 1) (reg : BitVec 3) (v : Int) : Latches :=
  { latchedLeading start b1 .immReg with w := some w, reg := some reg, imm := some v }

/-- `B0` to `B7`: a byte immediate to a byte register. -/
def execMovR8Imm8 (reg : BitVec 3) (imm : Byte) (s : State) : Answer :=
  .next (complete (1 + immLength .byte) (immRegLatches s.cur (0b10110#5 ++ reg) 0#1 reg (imm.toNat : Int))
    { mnemonic := "mov", dst := .reg .byte reg, src := .imm .byte (imm.toNat : Int), sizeKw := none } s)

/-- `B8` to `BF`: a word immediate to a word register. -/
def execMovR16Imm16 (reg : BitVec 3) (imm : U16) (s : State) : Answer :=
  .next (complete (1 + immLength .word) (immRegLatches s.cur (0b10111#5 ++ reg) 1#1 reg (imm.toNat : Int))
    { mnemonic := "mov", dst := .reg .word reg, src := .imm .word (imm.toNat : Int), sizeKw := none } s)

end Sys2Proof.Machine
end

