-- ==== Sys2Proof/Machine/ImmRm.lean ====
section
/-!
DEFINITION. MOV, immediate to register/memory: form `IMM_RM`, leading bytes `C6` and `C7` (`43_mov_forms.md` rule R133). The immediate is
signed whatever the destination (R117, C3); the field `b2[5:3]` is latched and has no other effect (R78, R110).
-/

namespace Sys2Proof.Machine

/-- What form `IMM_RM` latches (R130, R116, R117). -/
def immRmLatches (start : Nat) (b1 : Byte) (w : BitVec 1) (ext : BitVec 3) (rm : Rm) (v : Int) : Latches :=
  { latchedModrm ext rm { latchedLeading start b1 .immRm with w := some w } with imm := some v }

/-- `C6`: a byte immediate to the `rm` operand. -/
def execMovRm8Imm8 (ext : BitVec 3) (rm : Rm) (imm : Byte) (s : State) : Answer :=
  .next (complete (2 + rmDispLength rm + immLength .byte) (immRmLatches s.cur 0xC6#8 0#1 ext rm (sext8 imm))
    { mnemonic := "mov", dst := rmOperand .byte rm, src := .imm .byte (sext8 imm),
      sizeKw := sizeKeywordFor .byte (rmOperand .byte rm) } s)

/-- `C7`: a word immediate to the `rm` operand. -/
def execMovRm16Imm16 (ext : BitVec 3) (rm : Rm) (imm : U16) (s : State) : Answer :=
  .next (complete (2 + rmDispLength rm + immLength .word) (immRmLatches s.cur 0xC7#8 1#1 ext rm (sext16 imm))
    { mnemonic := "mov", dst := rmOperand .word rm, src := .imm .word (sext16 imm),
      sizeKw := sizeKeywordFor .word (rmOperand .word rm) } s)

end Sys2Proof.Machine
end

