-- ==== Sys2Proof/Machine/RmReg.lean ====
section
/-!
DEFINITION. MOV, register/memory to/from register: form `RM_REG`, leading bytes `88` to `8B` (`43_mov_forms.md` rules R131, R132). The
direction bit chooses which resolved operand is the destination; nothing is swapped (R241).
-/

namespace Sys2Proof.Machine

/-- What form `RM_REG` latches (R130, R116). -/
def rmRegLatches (start : Nat) (b1 : Byte) (d w : BitVec 1) (reg : BitVec 3) (rm : Rm) : Latches :=
  latchedModrm reg rm { latchedLeading start b1 .rmReg with d := some d, w := some w }

/-- `88`: `rm` operand from register, bytes. -/
def execMovRm8R8 (reg : BitVec 3) (rm : Rm) (s : State) : Answer :=
  .next (complete (2 + rmDispLength rm) (rmRegLatches s.cur 0x88#8 0#1 0#1 reg rm)
    { mnemonic := "mov", dst := rmOperand .byte rm, src := .reg .byte reg, sizeKw := none } s)

/-- `89`: `rm` operand from register, words. -/
def execMovRm16R16 (reg : BitVec 3) (rm : Rm) (s : State) : Answer :=
  .next (complete (2 + rmDispLength rm) (rmRegLatches s.cur 0x89#8 0#1 1#1 reg rm)
    { mnemonic := "mov", dst := rmOperand .word rm, src := .reg .word reg, sizeKw := none } s)

/-- `8A`: register from `rm` operand, bytes. -/
def execMovR8Rm8 (reg : BitVec 3) (rm : Rm) (s : State) : Answer :=
  .next (complete (2 + rmDispLength rm) (rmRegLatches s.cur 0x8A#8 1#1 0#1 reg rm)
    { mnemonic := "mov", dst := .reg .byte reg, src := rmOperand .byte rm, sizeKw := none } s)

/-- `8B`: register from `rm` operand, words. -/
def execMovR16Rm16 (reg : BitVec 3) (rm : Rm) (s : State) : Answer :=
  .next (complete (2 + rmDispLength rm) (rmRegLatches s.cur 0x8B#8 1#1 1#1 reg rm)
    { mnemonic := "mov", dst := .reg .word reg, src := rmOperand .word rm, sizeKw := none } s)

end Sys2Proof.Machine
end

