-- ==== Sys2Proof/Machine/Unsupported.lean ====
section
/-!
DEFINITION. The unsupported leading byte (`43_mov_forms.md` rule R137): it alone is consumed, no record is built and no line is emitted
(R218), and `UnsupportedInstruction` is raised.
-/

namespace Sys2Proof.Machine

/-- The default row of the opcode table. -/
def execUnsupported (b1 : Byte) (s : State) : Answer :=
  .next (raise (unsupportedRecord s.cur b1 (s.cur + 1)) (consume 1 (latchedLeading s.cur b1 .unsupported) s))

end Sys2Proof.Machine
end

