-- ==== Sys2Proof/Machine/Dispatch.lean ====
section
/-!
DEFINITION. One arm per instruction: the meaning each has.
-/

namespace Sys2Proof.Machine

def exec (i : Instr) (s : State) : Host.Outcome State Fault Refusal :=
  match i with
  | .movRm8R8 reg rm => Sys2Proof.Machine.execMovRm8R8 reg rm s
  | .movRm16R16 reg rm => Sys2Proof.Machine.execMovRm16R16 reg rm s
  | .movR8Rm8 reg rm => Sys2Proof.Machine.execMovR8Rm8 reg rm s
  | .movR16Rm16 reg rm => Sys2Proof.Machine.execMovR16Rm16 reg rm s
  | .movRm8Imm8 ext rm imm => Sys2Proof.Machine.execMovRm8Imm8 ext rm imm s
  | .movRm16Imm16 ext rm imm => Sys2Proof.Machine.execMovRm16Imm16 ext rm imm s
  | .movR8Imm8 reg imm => Sys2Proof.Machine.execMovR8Imm8 reg imm s
  | .movR16Imm16 reg imm => Sys2Proof.Machine.execMovR16Imm16 reg imm s
  | .movAlMem addr => Sys2Proof.Machine.execMovAlMem addr s
  | .movAxMem addr => Sys2Proof.Machine.execMovAxMem addr s
  | .movMemAl addr => Sys2Proof.Machine.execMovMemAl addr s
  | .movMemAx addr => Sys2Proof.Machine.execMovMemAx addr s
  | .unsupported b1 => Sys2Proof.Machine.execUnsupported b1 s

end Sys2Proof.Machine
end

