-- ==== Sys2Proof/WellFormed.lean ====
section
/-!
DEFINITION. Which terms of `Instr` stand for an encoding of the spec. Two checks: a base expression without displacement is
not `rm = 0b110` (that encoding is the direct address, R67), and the leading byte of `unsupported` matches none of the
patterns of R62.
-/

namespace Sys2Proof

/-- The match and mask of each MOV form's leading byte (R62). -/
def leadingPatterns : List (Byte × Byte) :=
  [(0x88#8, 0xFC#8), (0xC6#8, 0xFE#8), (0xB0#8, 0xF0#8), (0xA0#8, 0xFE#8), (0xA2#8, 0xFE#8)]

/-- The leading byte belongs to one of the five MOV forms (R62, R75). -/
abbrev SupportedByte (b1 : Byte) : Prop := ∃ p ∈ leadingPatterns, b1 &&& p.2 = p.1

/-- The operand has an encoding of its own (R67). -/
abbrev Rm.WellFormed (rm : Rm) : Prop := rm ≠ .noDisp 0b110#3

/-- The instruction has an encoding (R62, R67, R75). -/
def Instr.wellFormed : Instr → Bool
  | .movRm8R8 _ rm => decide rm.WellFormed
  | .movRm16R16 _ rm => decide rm.WellFormed
  | .movR8Rm8 _ rm => decide rm.WellFormed
  | .movR16Rm16 _ rm => decide rm.WellFormed
  | .movRm8Imm8 _ rm _ => decide rm.WellFormed
  | .movRm16Imm16 _ rm _ => decide rm.WellFormed
  | .movR8Imm8 _ _ => true
  | .movR16Imm16 _ _ => true
  | .movAlMem _ => true
  | .movAxMem _ => true
  | .movMemAl _ => true
  | .movMemAx _ => true
  | .unsupported b1 => decide (¬ SupportedByte b1)

/-- The instruction has an encoding, as a proposition. -/
abbrev Instr.WellFormed (i : Instr) : Prop := i.wellFormed = true

end Sys2Proof
end

