-- ==== Sys2Proof/Decode.lean ====
section
/-!
DEFINITION. The decoder, written from the spec's own pseudocode (`42_modrm.md`, `43_mov_forms.md` rule R130): it reads one read group
at a time, each after its `need`, and latches each field as it is read. After it, the encoder, from the formats of R63 to R66.
-/

namespace Sys2Proof

open Sys2Proof.Machine

/-! ### Decoding -/

/-- The form of a leading byte: the pattern tests in the source's order (R73, R130; the first test as corrected by C1). -/
def formOf (b1 : Byte) : Form :=
  if b1.extractLsb' 2 6 = 0b100010#6 then .rmReg
  else if b1.extractLsb' 1 7 = 0b1100011#7 then .immRm
  else if b1.extractLsb' 4 4 = 0b1011#4 then .immReg
  else if b1.extractLsb' 2 6 = 0b101000#6 then (if directionBit b1 = 0#1 then .memAcc else .accMem)
  else .unsupported

/-- The latches dispatch writes (R130). -/
def dispatchLatches (b1 : Byte) (l : Latches) : Latches :=
  let form := formOf b1
  match form with
  | .rmReg => { l with form := some form, d := some (directionBit b1), w := some (widthBit form b1) }
  | .immRm => { l with form := some form, w := some (widthBit form b1) }
  | .immReg => { l with form := some form, w := some (widthBit form b1), reg := some (b1.extractLsb' 0 3) }
  | .memAcc => { l with form := some form, d := some (directionBit b1), w := some (widthBit form b1) }
  | .accMem => { l with form := some form, d := some (directionBit b1), w := some (widthBit form b1) }
  | .unsupported => { l with form := some form }

/-- `read_modrm()` (R110): the fields `mod`, `reg`, `rm` of `b2`. -/
def readModrm : Decoder (BitVec 2 × BitVec 3 × BitVec 3) := do
  need 1
  let b2 ← nextByte
  let mod := b2.extractLsb' 6 2
  let reg := b2.extractLsb' 3 3
  let rm := b2.extractLsb' 0 3
  latch fun l => { l with b2 := some b2, mod := some mod, reg := some reg, rm := some rm }
  return (mod, reg, rm)

/-- A direct address, of `parse_rm` or of an accumulator form (R113, R119). -/
def readAddress : Decoder U16 := do
  need 2
  let a ← read16
  latch fun l => { l with addr := some a }
  return a

/-- An 8-bit displacement (R114). -/
def readDisp8 : Decoder Byte := do
  need 1
  let d ← nextByte
  latch fun l => { l with disp := some (sext8 d) }
  return d

/-- A 16-bit displacement (R115). -/
def readDisp16 : Decoder U16 := do
  need 2
  let d ← read16
  latch fun l => { l with disp := some (sext16 d) }
  return d

/-- The operand that `mod` and `rm` select (R111 to R116). -/
def readRmTail (mod : BitVec 2) (rm : BitVec 3) : Decoder Rm :=
  if mod = 0b11#2 then return .reg rm
  else if mod = 0b00#2 then
    if rm = 0b110#3 then do
      let a ← readAddress
      return .direct a
    else return .noDisp rm
  else if mod = 0b01#2 then do
    let d ← readDisp8
    return .disp8 rm d
  else do
    let d ← readDisp16
    return .disp16 rm d

/-- `parse_rm(W)` (R116), with the `reg` field beside the operand. -/
def parseRm : Decoder (BitVec 3 × Rm) := do
  let (mod, reg, rm) ← readModrm
  let operand ← readRmTail mod rm
  return (reg, operand)

/-- A one-byte immediate, latched as the value `interp` gives it (R117, R118). -/
def readImm8 (interp : Byte → Int) : Decoder Byte := do
  need 1
  let v ← nextByte
  latch fun l => { l with imm := some (interp v) }
  return v

/-- A two-byte immediate, latched as the value `interp` gives it (R117, R118). -/
def readImm16 (interp : U16 → Int) : Decoder U16 := do
  need 2
  let v ← read16
  latch fun l => { l with imm := some (interp v) }
  return v

/-- The unsigned reading of a one-byte immediate (R118). -/
def zext8 (v : Byte) : Int := (v.toNat : Int)

/-- The unsigned reading of a two-byte immediate (R118). -/
def zext16 (v : U16) : Int := (v.toNat : Int)

/-- Form `RM_REG` (R131). -/
def readRmReg (d w : BitVec 1) : Decoder Instr := do
  let (reg, rm) ← parseRm
  return (
    if d = 1#1 then (match widthOf w with | .byte => .movR8Rm8 reg rm | .word => .movR16Rm16 reg rm)
    else (match widthOf w with | .byte => .movRm8R8 reg rm | .word => .movRm16R16 reg rm))

/-- Form `IMM_RM` (R133): the immediate comes after the displacement and is signed. -/
def readImmRm (w : BitVec 1) : Decoder Instr := do
  let (ext, rm) ← parseRm
  match widthOf w with
  | .byte =>
    let v ← readImm8 sext8
    return .movRm8Imm8 ext rm v
  | .word =>
    let v ← readImm16 sext16
    return .movRm16Imm16 ext rm v

/-- Form `IMM_REG` (R134): the immediate is unsigned. -/
def readImmReg (w : BitVec 1) (reg : BitVec 3) : Decoder Instr :=
  match widthOf w with
  | .byte => do
    let v ← readImm8 zext8
    return .movR8Imm8 reg v
  | .word => do
    let v ← readImm16 zext16
    return .movR16Imm16 reg v

/-- Form `MEM_ACC` (R135). -/
def readMemAcc (w : BitVec 1) : Decoder Instr := do
  let a ← readAddress
  return (match widthOf w with | .byte => .movAlMem a | .word => .movAxMem a)

/-- Form `ACC_MEM` (R136). -/
def readAccMem (w : BitVec 1) : Decoder Instr := do
  let a ← readAddress
  return (match widthOf w with | .byte => .movMemAl a | .word => .movMemAx a)

/-- The bytes after the leading byte, by form (R181). -/
def readForm (b1 : Byte) : Decoder Instr :=
  match formOf b1 with
  | .rmReg => readRmReg (directionBit b1) (widthBit .rmReg b1)
  | .immRm => readImmRm (widthBit .immRm b1)
  | .immReg => readImmReg (widthBit .immReg b1) (b1.extractLsb' 0 3)
  | .memAcc => readMemAcc (widthBit .memAcc b1)
  | .accMem => readAccMem (widthBit .accMem b1)
  | .unsupported => return .unsupported b1

/-- One instruction read at the cursor (R181, from `START <- CUR` to the end of the decode). -/
def fetchInstr : Decoder Instr := do
  let start ← cursorIndex
  latch fun _ => { Latches.empty with start := some start }
  let b1 ← nextByte
  latch fun l => dispatchLatches b1 { l with b1 := some b1 }
  readForm b1

/-- The instruction at the head of a sequence of bytes and how many bytes it takes, or why there is none. -/
def decode (bs : List Byte) : Except Stop (Instr × Nat) :=
  match fetchInstr (cursorOver bs) with
  | .ok i c => .ok (i, c.cur)
  | .error e _ => .error e

/-! ### Encoding -/

/-- The bytes of an instruction, the leading byte first (R61, R63 to R66). -/
def encode : Instr → List Byte
  | .movRm8R8 reg rm => 0x88#8 :: modrmByte reg rm :: rmTail rm
  | .movRm16R16 reg rm => 0x89#8 :: modrmByte reg rm :: rmTail rm
  | .movR8Rm8 reg rm => 0x8A#8 :: modrmByte reg rm :: rmTail rm
  | .movR16Rm16 reg rm => 0x8B#8 :: modrmByte reg rm :: rmTail rm
  | .movRm8Imm8 ext rm v => 0xC6#8 :: modrmByte ext rm :: (rmTail rm ++ [v])
  | .movRm16Imm16 ext rm v => 0xC7#8 :: modrmByte ext rm :: (rmTail rm ++ bytesOf v)
  | .movR8Imm8 reg v => [0b10110#5 ++ reg, v]
  | .movR16Imm16 reg v => (0b10111#5 ++ reg) :: bytesOf v
  | .movAlMem a => 0xA0#8 :: bytesOf a
  | .movAxMem a => 0xA1#8 :: bytesOf a
  | .movMemAl a => 0xA2#8 :: bytesOf a
  | .movMemAx a => 0xA3#8 :: bytesOf a
  | .unsupported b1 => [b1]

/-! ### Words of the opcode table -/

/-- The `n` bytes of a number, byte 0 (bits 7 to 0) first. -/
def bytesOfNat : Nat → Nat → List Byte
  | 0, _ => []
  | n + 1, w => BitVec.ofNat 8 w :: bytesOfNat n (w / 256)

/-- The bytes of a table word: its `nbits` bits, then zeros up to the longest instruction's 6 bytes (R70). -/
def tableBytes (nbits w : Nat) : List Byte := bytesOfNat (max ((nbits + 7) / 8) 6) (w % 2 ^ nbits)

/-- The instruction the decoder reads from a table word. -/
def decodeTableWord (nbits w : Nat) : Option Instr :=
  match decode (tableBytes nbits w) with
  | .ok (i, _) => some i
  | .error _ => none

end Sys2Proof
end

