-- ==== Sys2Proof/Machine/Loop.lean ====
section
/-!
DEFINITION. The boundary between instructions (`45_loop_emitter.md` rules R180, R181): what a step does before it has an instruction to
run, and placing a stream for the next step to fetch from.
-/

namespace Sys2Proof.Machine

/-- What the loop has at an instruction boundary. -/
inductive Boundary where
  /-- An instruction, to be run from the state at the boundary. -/
  | instruction (i : Instr)
  /-- No instruction: the step's whole answer. -/
  | answer (o : Answer)

/-- The loop up to the decoded instruction (R180, R181): outside `READY` no step is enabled; at the end of the stream the run is
`DONE`; otherwise one instruction is fetched, or the read stops. -/
def atBoundary (s : State) : Boundary :=
  match s.run with
  | .ready =>
    if hasMore (cursorOf s) then
      match fetchInstr (cursorOf s) with
      | .ok i _ => .instruction i
      | .error why c => .answer (stopped why c s)
    else .answer (.next (endRun s))
  | .idle => .answer (.refused (.stepNotEnabled .idle))
  | .done => .answer (.refused (.stepNotEnabled .done))
  | .halted => .answer (.refused (.stepNotEnabled .halted))

/-- The state with a stream loaded and the loop standing at its first byte: the fetch's part of what a `load` leaves (R29). -/
def placeStream (bs : List Byte) (s : State) : State :=
  { s with stream := Memory.ofBytes bs, len := bs.length, cur := 0, run := .ready }

end Sys2Proof.Machine
end

