-- ==== Sys2Proof/Machine/Step.lean ====
section
/-!
DEFINITION. The step (`45_loop_emitter.md` rule R181): one iteration of the decode loop.
-/

namespace Sys2Proof.Machine

/-- One iteration of the decode loop (R181), the `step` port's transaction (R28). -/
def step (s : State) : Host.Outcome State Fault Refusal :=
  match atBoundary s with
  | .instruction i => exec i s
  | .answer o => o

/-- The state with a table word placed where the next step fetches: as the stream, from index 0, the loop at an instruction
boundary. It stands for the load of a program (notes/assumptions/1.md). -/
def State.withFetchWord (s : State) (nbits w : Nat) : State := placeStream (tableBytes nbits w) s

end Sys2Proof.Machine
end

