-- ==== Sys2Proof/Machine/Transactions.lean ====
section
/-!
DEFINITION. The ports of MOVDEC as transactions (`10_state.md` rule R28) and the loop that drives `step` to the end of a run
(`45_loop_emitter.md` rules R180, R182, R184, R188, R191). The `fetch` port is `nextByte`, the `emit` port is `emit`, and the `event` port's
reports are the appends of `raise` to `LOG`.
-/

namespace Sys2Proof.Machine

/-- A run is in progress. -/
def running (s : State) : Bool := decide (s.run = .ready)

/-- The `cfg` port: the host sets `POLICY`, outside a run only (R17, R212, U5). -/
def setPolicy (p : Policy) (s : State) : Answer :=
  if running s then .refused .cfgDuringRun else .next { s with policy := some p }

/-- Every state element at its after-load value (R29, R91), before the header is emitted. -/
def loaded (bs : List Byte) (s : State) : State :=
  { s with
    stream := Memory.ofBytes bs, len := bs.length, cur := 0, run := .ready, err := none, log := [], uCount := 0,
    out := [], latches := Latches.empty }

/-- The header (R184): two lines through the same `emit` as any line; after a failed line there is no second. -/
def emitHeader (s : State) : State :=
  let s1 := emit headerDirective s
  if running s1 then emit headerBlank s1 else s1

/-- `load(bytes)` (R91, R180, R191): refused during a run and while `POLICY` is not set (R17). -/
def load (bs : List Byte) (s : State) : Answer :=
  if running s then .refused .loadDuringRun
  else if s.policy.isNone then .refused .policyNotSet
  else .next (emitHeader (loaded bs s))

/-- The loader reports `LoadFailure` (R29, R180, R203): the run is over before any byte is decoded. `S`, `LEN`, `CUR`, unspecified and
unread, are as after power-on (DESIGN CHOICE, notes/assumptions/2.md). -/
def loadFailed (s : State) : Answer :=
  if running s then .refused .loadDuringRun
  else .next (raise loadFailureRecord
    { s with
      stream := [], len := 0, cur := 0, run := .idle, err := none, log := [], uCount := 0, out := [],
      latches := Latches.empty })

/-- What the `status` port shows (R22, R28). -/
structure Status where
  run : Run
  err : Option ErrRec
  uCount : Nat
  cur : Nat
  len : Nat
  deriving DecidableEq, Repr

/-- The `status` port: it reads and changes nothing (R22, R28). -/
def readStatus (s : State) : Status := { run := s.run, err := s.err, uCount := s.uCount, cur := s.cur, len := s.len }

/-- The host's read of `POLICY`, allowed at any time (R22); R28 gives it no port, so it stands beside `status`
(notes/assumptions/17.md). `none` is "not set". -/
def readPolicy (s : State) : Option Policy := s.policy

/-- Every move of the machine: the host's transactions and the step (R28, R180). -/
inductive Transaction where
  | cfg (p : Policy)
  | load (bs : List Byte)
  | loadFailure
  | step
  deriving DecidableEq, Repr

/-- What a transaction does. -/
def transact (t : Transaction) (s : State) : Answer :=
  match t with
  | .cfg p => setPolicy p s
  | .load bs => load bs s
  | .loadFailure => loadFailed s
  | .step => step s

/-- `run()` (R182): steps while `RUN = READY`, at most `n` of them. -/
def runSteps : Nat → State → State
  | 0, s => s
  | n + 1, s =>
    if running s then
      match step s with
      | .next t => runSteps n t
      | .fault _ => s
      | .refused _ => s
    else s

end Sys2Proof.Machine
end

