-- ==== Sys2Proof/Safety.lean ====
section
/-!
DEFINITION. What the claims call safe: the invariants of the state (`10_state.md` rules R14, R15, R25, R183), the ends of a run
(`45_loop_emitter.md` rule R183), what a run may not change, and the grammar of an emitted line (`44_render.md` rules R161, R170).
-/

namespace Sys2Proof.Machine

/-- How many `UnsupportedInstruction` records a log holds (R15). -/
def unsupportedIn (log : List ErrRec) : Nat := log.countP fun r => decide (r.kind = .unsupportedInstruction)

/-- The invariants the spec states for every reachable state (R14, R15, R25; R183 for the log of a run
that has not halted), with the stream in canonical form and every index
below `LEN` backed by a byte (R11). -/
structure State.Inv (s : State) : Prop where
  stream_backed : Memory.backs s.stream s.len = true
  cur_le_len : s.cur ≤ s.len
  halted_iff_err : s.run = .halted ↔ s.err ≠ none
  done_at_end : s.run = .done → s.cur = s.len ∧ s.err = none
  err_is_last : ∀ r, s.err = some r → s.log.getLast? = some r
  uCount_counts : s.uCount = unsupportedIn s.log
  uCount_le_cur : s.uCount ≤ s.cur
  live_log_skipped : s.run ≠ .halted → ∀ r ∈ s.log, r.kind = .unsupportedInstruction

/-- What holds in `READY` besides: the header is in `OUT` and the policy is set (R184, R233). -/
structure State.Started (s : State) : Prop where
  header : [headerDirective, headerBlank] <+: s.out
  policy_set : s.policy ≠ none

/-- The run has ended (R183). -/
def State.ended (s : State) : Bool := decide (s.run = .done) || decide (s.run = .halted)

/-- The good end at which every byte was decoded: `DONE` with `UCOUNT = 0` (R183). -/
def State.cleanEnd (s : State) : Bool := decide (s.run = .done) && decide (s.uCount = 0)

/-- What a step of a run keeps or only extends (R25, R43, R96, R104). -/
structure Progress (s t : State) : Prop where
  stream_same : t.stream = s.stream
  len_same : t.len = s.len
  policy_same : t.policy = s.policy
  cur_monotonic : s.cur ≤ t.cur
  out_grows : s.out <+: t.out
  log_grows : s.log <+: t.log

/-- The bytes `bs` stand in a stream of `len` bytes from index `k`. -/
def Memory.holdsAt (m : Memory) (len k : Nat) (bs : List Byte) : Prop :=
  k + bs.length ≤ len ∧ ∀ j, ∀ h : j < bs.length, Memory.read m (k + j) = some bs[j]

/-- The bytes `bs` are the next ones to be read. -/
def State.holdsNext (s : State) (bs : List Byte) : Prop := Memory.holdsAt s.stream s.len s.cur bs

/-- The characters an instruction line is made of (R161). -/
def lineCharacters : List Char :=
  ['a', 'b', 'c', 'd', 'e', 'h', 'i', 'l', 'm', 'o', 'p', 'r', 's', 't', 'v', 'w', 'x', 'y',
   '0', '1', '2', '3', '4', '5', '6', '7', '8', '9', ' ', ',', '[', ']', '+', '-']

/-- A `uint` of the grammar (R170): no leading zero. -/
def isUint (t : String) : Bool :=
  match t.toList with
  | [] => false
  | '0' :: rest => rest.isEmpty
  | c :: rest => c.isDigit && rest.all Char.isDigit

/-- A `value` of the grammar (R170). -/
def isValue (t : String) : Bool :=
  isUint t || (match t.toList with | '-' :: rest => isUint (String.ofList rest) | _ => false)

/-- The terminals of `reg` (R170), written out. -/
def grammarRegs : List String :=
  ["al", "cl", "dl", "bl", "ah", "ch", "dh", "bh", "ax", "cx", "dx", "bx", "sp", "bp", "si", "di"]

/-- The terminals of `base` (R170), written out. -/
def grammarBases : List String := ["bx + si", "bx + di", "bp + si", "bp + di", "si", "di", "bp", "bx"]

/-- A `reg` of the grammar (R170). -/
def IsReg (t : String) : Prop := t ∈ grammarRegs

/-- A `mem` of the grammar (R170). -/
def IsMem (t : String) : Prop :=
  (∃ b ∈ grammarBases, t = "[" ++ b ++ "]") ∨
  (∃ b ∈ grammarBases, ∃ u, isUint u = true ∧ (t = "[" ++ b ++ " + " ++ u ++ "]" ∨ t = "[" ++ b ++ " - " ++ u ++ "]")) ∨
  (∃ u, isUint u = true ∧ t = "[" ++ u ++ "]")

/-- A `line` of the grammar (R170): at most one operand is a `mem`, and the keyword stands exactly between a `mem` and a `value`. -/
def IsLine (t : String) : Prop :=
  (∃ d r, IsReg d ∧ IsReg r ∧ t = "mov " ++ d ++ ", " ++ r) ∨
  (∃ d m, IsReg d ∧ IsMem m ∧ t = "mov " ++ d ++ ", " ++ m) ∨
  (∃ d v, IsReg d ∧ isValue v = true ∧ t = "mov " ++ d ++ ", " ++ v) ∨
  (∃ m r, IsMem m ∧ IsReg r ∧ t = "mov " ++ m ++ ", " ++ r) ∨
  (∃ m v, IsMem m ∧ isValue v = true ∧ (t = "mov " ++ m ++ ", byte " ++ v ∨ t = "mov " ++ m ++ ", word " ++ v))

/-! ### The text the spec gives an instruction, written out from the bits of its encoding -/

/-- The text of a ModR/M operand (R162 to R166), its displacement read as two's complement. -/
def rmText (w : Width) : Rm → String
  | .reg rm => registerName w rm
  | .noDisp rm => "[" ++ baseExpression rm ++ "]"
  | .direct a => "[" ++ decNat a.toNat ++ "]"
  | .disp8 rm d =>
    if d.toInt = 0 then "[" ++ baseExpression rm ++ "]"
    else if 0 < d.toInt then "[" ++ baseExpression rm ++ " + " ++ decNat d.toInt.toNat ++ "]"
    else "[" ++ baseExpression rm ++ " - " ++ decNat (-d.toInt).toNat ++ "]"
  | .disp16 rm d =>
    if 0 ≤ d.toInt then "[" ++ baseExpression rm ++ " + " ++ decNat d.toInt.toNat ++ "]"
    else "[" ++ baseExpression rm ++ " - " ++ decNat (-d.toInt).toNat ++ "]"

/-- The size keyword form `IMM_RM` writes before its immediate: none when `mod = 0b11` (R133, R168). -/
def keywordText (kw : String) : Rm → String
  | .reg _ => ""
  | .noDisp _ => kw
  | .direct _ => kw
  | .disp8 _ _ => kw
  | .disp16 _ _ => kw

/-- The text of a signed immediate (R160, R167). -/
def signedText (v : Int) : String := if 0 ≤ v then decNat v.toNat else "-" ++ decNat (-v).toNat

/-- The line of a MOV (R131 to R136, R169); an unsupported byte has none (R218). -/
def instrText : Instr → Option String
  | .movRm8R8 reg rm => some ("mov " ++ rmText .byte rm ++ ", " ++ registerName .byte reg)
  | .movRm16R16 reg rm => some ("mov " ++ rmText .word rm ++ ", " ++ registerName .word reg)
  | .movR8Rm8 reg rm => some ("mov " ++ registerName .byte reg ++ ", " ++ rmText .byte rm)
  | .movR16Rm16 reg rm => some ("mov " ++ registerName .word reg ++ ", " ++ rmText .word rm)
  | .movRm8Imm8 _ rm v => some ("mov " ++ rmText .byte rm ++ ", " ++ keywordText "byte " rm ++ signedText v.toInt)
  | .movRm16Imm16 _ rm v => some ("mov " ++ rmText .word rm ++ ", " ++ keywordText "word " rm ++ signedText v.toInt)
  | .movR8Imm8 reg v => some ("mov " ++ registerName .byte reg ++ ", " ++ decNat v.toNat)
  | .movR16Imm16 reg v => some ("mov " ++ registerName .word reg ++ ", " ++ decNat v.toNat)
  | .movAlMem a => some ("mov al, [" ++ decNat a.toNat ++ "]")
  | .movAxMem a => some ("mov ax, [" ++ decNat a.toNat ++ "]")
  | .movMemAl a => some ("mov [" ++ decNat a.toNat ++ "], al")
  | .movMemAx a => some ("mov [" ++ decNat a.toNat ++ "], ax")
  | .unsupported _ => none

/-! ### What a MOV leaves, in the spec's own terms -/

/-- The form of an instruction (R62). -/
def instrForm : Instr → Form
  | .movRm8R8 _ _ => .rmReg
  | .movRm16R16 _ _ => .rmReg
  | .movR8Rm8 _ _ => .rmReg
  | .movR16Rm16 _ _ => .rmReg
  | .movRm8Imm8 _ _ _ => .immRm
  | .movRm16Imm16 _ _ _ => .immRm
  | .movR8Imm8 _ _ => .immReg
  | .movR16Imm16 _ _ => .immReg
  | .movAlMem _ => .memAcc
  | .movAxMem _ => .memAcc
  | .movMemAl _ => .accMem
  | .movMemAx _ => .accMem
  | .unsupported _ => .unsupported

/-- The displacement length of R68, read off the operand. -/
def dispBytes : Rm → Nat
  | .reg _ => 0
  | .noDisp _ => 0
  | .direct _ => 2
  | .disp8 _ _ => 1
  | .disp16 _ _ => 2

/-- The length of an instruction in bytes (R70). -/
def instrLength : Instr → Nat
  | .movRm8R8 _ rm => 2 + dispBytes rm
  | .movRm16R16 _ rm => 2 + dispBytes rm
  | .movR8Rm8 _ rm => 2 + dispBytes rm
  | .movR16Rm16 _ rm => 2 + dispBytes rm
  | .movRm8Imm8 _ rm _ => 2 + dispBytes rm + 1
  | .movRm16Imm16 _ rm _ => 2 + dispBytes rm + 2
  | .movR8Imm8 _ _ => 2
  | .movR16Imm16 _ _ => 3
  | .movAlMem _ => 3
  | .movAxMem _ => 3
  | .movMemAl _ => 3
  | .movMemAx _ => 3
  | .unsupported _ => 1

/-- The read group of a ModR/M operand after `b2`: its displacement or address, where it has one (R68, R94). -/
def dispGroup : Rm → List Nat
  | .reg _ => []
  | .noDisp _ => []
  | .direct _ => [2]
  | .disp8 _ _ => [1]
  | .disp16 _ _ => [2]

/-- The read groups after the leading byte, each as the number of its bytes, in the order they are read (R94): `b2`, the
displacement or address, the immediate. -/
def readGroups : Instr → List Nat
  | .movRm8R8 _ rm => 1 :: dispGroup rm
  | .movRm16R16 _ rm => 1 :: dispGroup rm
  | .movR8Rm8 _ rm => 1 :: dispGroup rm
  | .movR16Rm16 _ rm => 1 :: dispGroup rm
  | .movRm8Imm8 _ rm _ => 1 :: (dispGroup rm ++ [1])
  | .movRm16Imm16 _ rm _ => 1 :: (dispGroup rm ++ [2])
  | .movR8Imm8 _ _ => [1]
  | .movR16Imm16 _ _ => [2]
  | .movAlMem _ => [2]
  | .movAxMem _ => [2]
  | .movMemAl _ => [2]
  | .movMemAx _ => [2]
  | .unsupported _ => []

/-- What the latch `DISP` holds after a ModR/M operand (R18). -/
def rmDisp : Rm → Option Int
  | .reg _ => none
  | .noDisp _ => none
  | .direct _ => none
  | .disp8 _ d => some d.toInt
  | .disp16 _ d => some d.toInt

/-- What the latch `ADDR` holds after a ModR/M operand (R18). -/
def rmAddr : Rm → Option U16
  | .reg _ => none
  | .noDisp _ => none
  | .direct a => some a
  | .disp8 _ _ => none
  | .disp16 _ _ => none

/-- The six latches a ModR/M operand fills (R18, R110). -/
def modrmFields (reg : BitVec 3) (rm : Rm) (l : Latches) : Latches :=
  { l with
    b2 := some (modrmByte reg rm), mod := some (rmModBits rm), reg := some reg, rm := some (rmBits rm),
    disp := rmDisp rm, addr := rmAddr rm }

/-- The state after a MOV of `n` bytes whose line the sink accepted: the cursor past it, its fields latched, its line in `OUT`, the
sink's answer used up, and EVERY OTHER element as it was. -/
def afterMov (n : Nat) (latches : Latches) (line : String) (s : State) : State :=
  { s with
    cur := s.cur + n, latches := latches, out := s.out ++ [line], sinkAnswers := s.sinkAnswers.tail,
    sinkSeq := s.sinkSeq + 1 }

/-- The run ended inside an instruction (R202): halted with a `TruncatedStream`, no line written. -/
def HaltedTruncated (s t : State) : Prop :=
  t.run = .halted ∧ t.out = s.out ∧ ∃ r, r.kind = .truncatedStream ∧ t.err = some r ∧ t.log = s.log ++ [r]

end Sys2Proof.Machine
end

