-- ==== Sys2Proof/Certificates/Slice0/Obligations.lean ====
section
/-!
DEFINITION. The statements for the provers. Each docstring names the rules of spec/ it formalises and, where it rests on a choice of the
model's or on a decision or inference that the spec marks as its own, says so.
-/

open Sys2Proof Sys2Proof.Machine

/-! ### Reset and the host's transactions -/

/-- R29, R230 (D11): after power-on no stream is loaded, nothing is recorded, and `POLICY` is not set. -/
def Obligations.PowerOnState : Prop :=
  State.reset.run = .idle ∧ State.reset.err = none ∧ State.reset.log = [] ∧ State.reset.uCount = 0 ∧
    State.reset.out = [] ∧ State.reset.latches = Latches.empty ∧ State.reset.policy = none

/-- R25, R29: the state after power-on meets the invariants. That its cursor is within its stream rests on log entry 2. -/
def Obligations.PowerOnMeetsInvariant : Prop := State.Inv State.reset

/-- R29, R91, R184 (D11, D13): what a successful load leaves, whatever was there before. -/
def Obligations.LoadStartsFreshRun : Prop :=
  ∀ (bs : List Byte) (s : State) (answers : List SinkAnswer),
    s.run ≠ .ready → s.policy ≠ none → s.sinkAnswers = .ok :: .ok :: answers →
    load bs s = .next
      { stream := Memory.ofBytes bs, len := bs.length, cur := 0, run := .ready, err := none, log := [], uCount := 0,
        out := ["bits 16", ""], latches := Latches.empty, policy := s.policy, sinkAnswers := answers,
        sinkSeq := s.sinkSeq + 2 }

/-- R11, R40, R41, R54: the loaded stream reads, at every index, as the sequence loaded, and has no value beyond it; its memory is in
canonical form. -/
def Obligations.LoadedStreamReadsAsItsBytes : Prop :=
  ∀ (bs : List Byte) (s t : State), load bs s = .next t →
    Memory.Wf t.stream ∧ t.len = bs.length ∧ ∀ a, Memory.read t.stream a = bs[a]?

/-- R14, R29, R184, R185, R204 (D8, D13, D18): a header line the sink refuses ends the run before any byte is read; `OUT` holds the header lines
accepted before it. The record has no instruction, and its `at` is `CUR`, which is 0 (R14, R185; R200 says otherwise, log entry 9). -/
def Obligations.RefusedHeaderHaltsRun : Prop :=
  ∀ (bs : List Byte) (s : State) (answers : List SinkAnswer),
    s.run ≠ .ready → s.policy ≠ none →
    (s.sinkAnswers = .fail :: answers →
      ∃ t, load bs s = .next t ∧ t.run = .halted ∧ t.out = [] ∧ t.cur = 0 ∧
        t.log = [⟨.sinkFailure, none, none, some 0, none, none⟩] ∧ t.err = some ⟨.sinkFailure, none, none, some 0, none, none⟩) ∧
    (s.sinkAnswers = .ok :: .fail :: answers →
      ∃ t, load bs s = .next t ∧ t.run = .halted ∧ t.out = ["bits 16"] ∧ t.cur = 0 ∧
        t.log = [⟨.sinkFailure, none, none, some 0, none, none⟩] ∧ t.err = some ⟨.sinkFailure, none, none, some 0, none, none⟩)

/-- R29, R180, R203: a reported `LoadFailure` halts the run before it starts, with the one record and no header. That no `POLICY` is needed
is the model's reading (log entry 10); the sink's fields are the model's own (log entry 3). -/
def Obligations.LoadFailureHaltsRun : Prop :=
  ∀ s : State, s.run ≠ .ready →
    ∃ t, loadFailed s = .next t ∧ t.run = .halted ∧ t.err = some ⟨.loadFailure, none, none, none, none, none⟩ ∧
      t.log = [⟨.loadFailure, none, none, none, none, none⟩] ∧ t.uCount = 0 ∧ t.out = [] ∧ t.latches = Latches.empty ∧
      t.policy = s.policy ∧ t.sinkAnswers = s.sinkAnswers ∧ t.sinkSeq = s.sinkSeq

/-- R17, R180, R191, U5 (D5, D19): what is refused: a step outside `READY`, a load or `cfg` inside a run, a load with `POLICY` not set. And a
`cfg` outside a run sets `POLICY` and nothing else. -/
def Obligations.DisabledTransactionsAreRefused : Prop :=
  ∀ (s : State) (bs : List Byte) (p : Policy),
    (s.run ≠ .ready → step s = .refused (.stepNotEnabled s.run)) ∧
    (s.run = .ready → load bs s = .refused .loadDuringRun ∧ loadFailed s = .refused .loadDuringRun ∧
      setPolicy p s = .refused .cfgDuringRun) ∧
    (s.run ≠ .ready → s.policy = none → load bs s = .refused .policyNotSet) ∧
    (s.run ≠ .ready → setPolicy p s = .next { s with policy := some p })

/-- R17, R22, R28: `POLICY` reads, at any time, as the last `cfg` set it: `cfg` sets it and changes nothing else the host reads, and no other
move of the machine changes it. That the read is a port of its own is log entry 17. -/
def Obligations.PolicyReadsAsLastSet : Prop :=
  ∀ (m : Transaction) (s t : State), transact m s = .next t →
    (∀ p, m = .cfg p → readPolicy t = some p ∧ readStatus t = readStatus s) ∧
    ((∀ p, m ≠ .cfg p) → readPolicy t = readPolicy s)

/-! ### The ByteCursor -/

/-- R92, R93: `has_more` and `next_byte`, for a cursor over any stream: below `LEN` the byte at `CUR` is returned and the cursor moves by
one, and nothing else changes; at the end no value is returned and the cursor does not move. -/
def Obligations.NextByteReadsAndAdvances : Prop :=
  ∀ c : Cursor, Memory.backs c.stream c.len = true →
    (hasMore c = true ↔ c.cur < c.len) ∧
    (c.cur < c.len → ∃ b, Memory.read c.stream c.cur = some b ∧ nextByte c = .ok b { c with cur := c.cur + 1 }) ∧
    (c.len ≤ c.cur → nextByte c = .error .cursorOverrun c)

/-- R95: once `need(2)` passed, `read16` answers `lo + 256 * hi`, the low byte at the lower index, and moves the cursor by 2. -/
def Obligations.Read16IsLittleEndian : Prop :=
  ∀ c : Cursor, Memory.backs c.stream c.len = true → need 2 c = .ok () c →
    ∃ lo hi v, Memory.read c.stream c.cur = some lo ∧ Memory.read c.stream (c.cur + 1) = some hi ∧
      read16 c = .ok v { c with cur := c.cur + 2 } ∧ v.toNat = lo.toNat + 256 * hi.toNat

/-- R200, R205 (D21): `CursorOverrun`, the contract violation of the cursor taken alone, halts the machine with its record; the cursor, the
output and the count are as they were. -/
def Obligations.CursorOverrunHaltsMachine : Prop :=
  ∀ s : State, s.len ≤ s.cur →
    nextByte (cursorOf s) = .error .cursorOverrun (cursorOf s) ∧
    stopped .cursorOverrun (cursorOf s) s = .next
      { s with
        run := .halted, err := some ⟨.cursorOverrun, none, none, some s.cur, none, none⟩,
        log := s.log ++ [⟨.cursorOverrun, none, none, some s.cur, none, none⟩] }

/-! ### Decoding -/

/-- R62, R72, R130: the form of each of the 256 leading bytes, by the ranges of the opcode map. -/
def Obligations.OpcodeMapOfLeadingBytes : Prop :=
  ∀ b1 : Byte, formOf b1 =
    if 0x88#8 ≤ b1 ∧ b1 ≤ 0x8B#8 then .rmReg
    else if b1 = 0xA0#8 ∨ b1 = 0xA1#8 then .memAcc
    else if b1 = 0xA2#8 ∨ b1 = 0xA3#8 then .accMem
    else if 0xB0#8 ≤ b1 ∧ b1 ≤ 0xBF#8 then .immReg
    else if b1 = 0xC6#8 ∨ b1 = 0xC7#8 then .immRm
    else .unsupported

/-- The worked examples of the source and one word of each other family, decoded (95 S1 to S5; R63 to R66, R75). -/
def Obligations.FamilyWordsDecodeRight : Prop :=
  decode [0x89#8, 0xD9#8] = .ok (.movRm16R16 3#3 (.reg 1#3), 2) ∧
  decode [0x8B#8, 0x41#8, 0xDB#8] = .ok (.movR16Rm16 0#3 (.disp8 1#3 0xDB#8), 3) ∧
  decode [0xC6#8, 0x06#8, 0x00#8, 0x00#8, 0x07#8] = .ok (.movRm8Imm8 0#3 (.direct 0#16) 7#8, 5) ∧
  decode [0xB1#8, 0x0C#8] = .ok (.movR8Imm8 1#3 12#8, 2) ∧
  decode [0xA1#8, 0xFB#8, 0x09#8] = .ok (.movAxMem 2555#16, 3) ∧
  decode [0xA2#8, 0x34#8, 0x12#8] = .ok (.movMemAl 4660#16, 3) ∧
  decode [0x8C#8, 0xD8#8] = .ok (.unsupported 0x8C#8, 1)

/-- R61, R63 to R66, R70: wherever the bytes of a well-formed instruction stand in a stream, the decoder reads that instruction back, every
field at its value, and the cursor moves by exactly its length. -/
def Obligations.DecodeOfEncode : Prop :=
  ∀ (i : Instr) (c : Cursor), i.WellFormed → Memory.holdsAt c.stream c.len c.cur (encode i) →
    ∃ d, fetchInstr c = .ok i d ∧ d.cur = c.cur + instrLength i ∧ d.stream = c.stream ∧ d.len = c.len

/-- R61, R78, R82: whatever the decoder reads is a well-formed instruction, and the bytes it consumed are that instruction's encoding, no
bit dropped. -/
def Obligations.EncodeOfDecode : Prop :=
  ∀ (i : Instr) (c d : Cursor), fetchInstr c = .ok i d →
    i.WellFormed ∧ Memory.holdsAt c.stream c.len c.cur (encode i) ∧ d.cur = c.cur + (encode i).length

/-- R82 (the spec's derivation): in form `RM_REG` the latches `W`, `MOD`, `REG`, `RM`, `D` and `DISP` or `ADDR` determine the bytes. -/
def Obligations.RegisterMemoryLatchesDetermineBytes : Prop :=
  ∀ (i j : Instr) (c d c' d' : Cursor), fetchInstr c = .ok i d → fetchInstr c' = .ok j d' →
    d.latches.form = some .rmReg → d'.latches.form = some .rmReg →
    d.latches.w = d'.latches.w → d.latches.mod = d'.latches.mod → d.latches.reg = d'.latches.reg →
    d.latches.rm = d'.latches.rm → d.latches.d = d'.latches.d → d.latches.disp = d'.latches.disp →
    d.latches.addr = d'.latches.addr → encode i = encode j

/-- R94, R120, R202 (D6): a stream that ends inside an instruction stops the decoder at the first read group that is not wholly there: the leading
byte and every earlier group are consumed and no byte of the failing one, `need` is that group's length and `avail` what is left of it. -/
def Obligations.TruncatedEncodingStops : Prop :=
  ∀ (i : Instr) (k : Nat) (c : Cursor), i.WellFormed → 0 < k → k < (encode i).length →
    Memory.holdsAt c.stream c.len c.cur ((encode i).take k) → c.len = c.cur + k →
    ∃ earlier need later d, readGroups i = earlier ++ need :: later ∧ 1 + earlier.sum ≤ k ∧ k < 1 + earlier.sum + need ∧
      fetchInstr c = .error (.truncated need (k - (1 + earlier.sum))) d ∧ d.cur = c.cur + (1 + earlier.sum) ∧
      d.stream = c.stream ∧ d.len = c.len

/-- R70, R94: the leading byte and the read groups after it are the whole instruction, and each group has 1 or 2 bytes. -/
def Obligations.ReadGroupsMakeUpInstruction : Prop :=
  ∀ i : Instr, (encode i).length = 1 + (readGroups i).sum ∧ ∀ n ∈ readGroups i, n = 1 ∨ n = 2

/-- R138 (the spec's derivation): the record and the number of bytes consumed depend on the bytes from the cursor onward and on nothing else. Two
running machines that agree on those bytes, their sinks accepting, write the same lines and consume the same number of bytes, whatever
their policies, cursors, logs and outputs. -/
def Obligations.DecodeDependsOnlyOnComingBytes : Prop :=
  ∀ s s' t t' : State, s.run = .ready → s'.run = .ready → s.len - s.cur = s'.len - s'.cur →
    (∀ k, Memory.read s.stream (s.cur + k) = Memory.read s'.stream (s'.cur + k)) →
    sinkAnswer s = .ok → sinkAnswer s' = .ok → step s = .next t → step s' = .next t' →
    ∃ (lines : List String) (n : Nat), t.out = s.out ++ lines ∧ t'.out = s'.out ++ lines ∧ t.cur = s.cur + n ∧
      t'.cur = s'.cur + n

/-! ### The step -/

/-- R181: when the fetch at the cursor reads an instruction, the step is that instruction's meaning from the state at the boundary. -/
def Obligations.StepRunsDecodedInstruction : Prop :=
  ∀ (s : State) (i : Instr) (c : Cursor), s.run = .ready → s.cur < s.len → fetchInstr (cursorOf s) = .ok i c →
    step s = exec i s

/-- R181: where the bytes of a well-formed instruction stand at the cursor, the step runs exactly that instruction. -/
def Obligations.StepRunsEncodedInstruction : Prop :=
  ∀ (s : State) (i : Instr), s.run = .ready → i.WellFormed → s.holdsNext (encode i) → step s = exec i s

/-- R7, R120, R181: the meaning leaves the cursor and the latches exactly as the micro-operations of the fetch left them. That the latches are still
there after the step is the model's choice (log entry 8); the spec never shows them then (R24). -/
def Obligations.MeaningAgreesWithFetch : Prop :=
  ∀ (s : State) (i : Instr) (c : Cursor), fetchInstr (cursorOf s) = .ok i c →
    ∃ t, exec i s = .next t ∧ t.cur = c.cur ∧ t.latches = c.latches ∧ t.stream = c.stream ∧ t.len = c.len

/-- R180, R181, R183: at the end of the stream the step ends the run well; only `RUN` and the latches change. -/
def Obligations.EndOfStreamEndsRun : Prop :=
  ∀ s : State, s.run = .ready → s.cur = s.len → step s = .next { s with run := .done, latches := Latches.empty }

/-- R181, R207: a step from `READY` does exactly one of three things: the run ends well; one line is emitted; one error is recorded, fatally or,
for an `UnsupportedInstruction` under `SKIP`, not. -/
def Obligations.StepDoesExactlyOneThing : Prop :=
  ∀ s t : State, s.Inv → s.run = .ready → step s = .next t →
    (t.run = .done ∧ t.out = s.out ∧ t.log = s.log ∧ t.err = none ∧ t.cur = s.cur) ∨
    (t.run = .ready ∧ (∃ line, t.out = s.out ++ [line]) ∧ t.log = s.log ∧ t.err = none ∧ s.cur < t.cur ∧
      t.uCount = s.uCount) ∨
    (∃ r, t.out = s.out ∧ t.log = s.log ++ [r] ∧ s.cur < t.cur ∧
      ((t.run = .halted ∧ t.err = some r) ∨
        (t.run = .ready ∧ t.err = none ∧ r.kind = .unsupportedInstruction ∧ policyInForce s = .skip ∧ t.cur = s.cur + 1)))

/-- R97 (the spec's derivation), R200: from a state that meets the invariants a step in `READY` always has a next state, and the errors it can record are
`UnsupportedInstruction`, `TruncatedStream` and `SinkFailure`; `CursorOverrun` is never raised. -/
def Obligations.LoopNeverOverrunsCursor : Prop :=
  ∀ s : State, s.Inv → s.run = .ready →
    ∃ t, step s = .next t ∧ ∀ r ∈ t.log, r ∈ s.log ∨
      r.kind = .unsupportedInstruction ∨ r.kind = .truncatedStream ∨ r.kind = .sinkFailure

/-- R11, R25, R43, R96: no step writes the stream, its length or the policy; the cursor never moves back; `OUT` and `LOG` only grow. -/
def Obligations.StepOnlyMovesForward : Prop :=
  ∀ s t : State, step s = .next t → Progress s t

/-- R25, R14, R15: every step keeps the invariants. -/
def Obligations.StepKeepsInvariant : Prop :=
  ∀ s t : State, s.Inv → step s = .next t → t.Inv

/-- R25, R180: every move of the machine, the host's transactions included, keeps the invariants. For a reported load failure this rests on the
model's choice of `S`, `LEN` and `CUR` (log entry 2). -/
def Obligations.TransactionsKeepInvariant : Prop :=
  ∀ (m : Transaction) (s t : State), s.Inv → transact m s = .next t → t.Inv

/-- R184, R233 (D13): whichever move leads to a run in progress or well ended, the header stands first in `OUT` and the policy is set, if this held
before. -/
def Obligations.HeaderStandsFirst : Prop :=
  ∀ (m : Transaction) (s t : State), (s.run = .ready ∨ s.run = .done → s.Started) → transact m s = .next t →
    (t.run = .ready ∨ t.run = .done → t.Started)

/-- R182, R243 (the spec's derivation): from `READY` the run ends after at most `LEN - CUR + 1` steps. -/
def Obligations.RunEndsWithinStepBound : Prop :=
  ∀ s : State, s.Inv → s.run = .ready → (runSteps (s.len - s.cur + 1) s).ended = true

/-- R183, R186: a stream that is a sequence of encodings of MOVs is decoded whole: with the sink accepting, the run ends in `DONE` at the end of the
stream, one line for each instruction, in order, and no error recorded. The sink's fields are the model's own (log entry 3). -/
def Obligations.StreamOfMovsIsDecodedWhole : Prop :=
  ∀ (is : List Instr) (s : State) (answers : List SinkAnswer),
    (∀ i ∈ is, i.WellFormed ∧ (instrText i).isSome) → s.run = .ready →
    s.holdsNext (is.flatMap encode) → s.len = s.cur + (is.flatMap encode).length →
    s.sinkAnswers = List.replicate is.length .ok ++ answers →
    runSteps (is.length + 1) s =
      { s with
        cur := s.len, run := .done, out := s.out ++ is.filterMap instrText, latches := Latches.empty,
        sinkAnswers := answers, sinkSeq := s.sinkSeq + is.length }

/-- R187, R201, R243: under `SKIP`, `n` unsupported bytes in a row give `n` records and no line, and the run goes on right after them. -/
def Obligations.SkippedBytesAreEachRecorded : Prop :=
  ∀ (bs : List Byte) (s : State), (∀ b ∈ bs, ¬ SupportedByte b) → s.run = .ready → s.policy = some .skip →
    s.holdsNext bs →
    let t := runSteps bs.length s
    t.run = .ready ∧ t.cur = s.cur + bs.length ∧ t.uCount = s.uCount + bs.length ∧ t.out = s.out ∧ t.err = s.err ∧
      t.log = s.log ++ bs.mapIdx fun k b =>
        ⟨.unsupportedInstruction, some (s.cur + k), some b, some (s.cur + k + 1), none, none⟩

/-! ### The MOV forms: result, completion and frame -/

/-- R131, R132, R70, R18, R169: the four instructions of form `RM_REG`. The direction bit chooses which operand is written first; the record equation
says that every other element is unchanged. That the latches are still there after the step is log entry 8 (DEDUCED; R24 never shows them
then), and the sink's fields are the model's own (log entry 3). -/
def Obligations.RegisterMemoryMovCompletes : Prop :=
  ∀ (reg : BitVec 3) (rm : Rm) (s : State), rm.WellFormed → sinkAnswer s = .ok →
    let fields (b1 : Byte) (d w : BitVec 1) : Latches :=
      modrmFields reg rm
        { Latches.empty with start := some s.cur, b1 := some b1, form := some .rmReg, d := some d, w := some w }
    exec (.movRm8R8 reg rm) s = .next (afterMov (2 + dispBytes rm) (fields 0x88#8 0#1 0#1)
      ("mov " ++ rmText .byte rm ++ ", " ++ registerName .byte reg) s) ∧
    exec (.movRm16R16 reg rm) s = .next (afterMov (2 + dispBytes rm) (fields 0x89#8 0#1 1#1)
      ("mov " ++ rmText .word rm ++ ", " ++ registerName .word reg) s) ∧
    exec (.movR8Rm8 reg rm) s = .next (afterMov (2 + dispBytes rm) (fields 0x8A#8 1#1 0#1)
      ("mov " ++ registerName .byte reg ++ ", " ++ rmText .byte rm) s) ∧
    exec (.movR16Rm16 reg rm) s = .next (afterMov (2 + dispBytes rm) (fields 0x8B#8 1#1 1#1)
      ("mov " ++ registerName .word reg ++ ", " ++ rmText .word rm) s)

/-- R133, R117, R168, R70, R18, R78 (D4, D9, D15): the two instructions of form `IMM_RM`. The immediate is signed whatever the destination; the size keyword
stands exactly before an immediate to memory; `b2[5:3]` reaches only the latches `B2` and `REG`. That the latches are still there after the
step is log entry 8 (DEDUCED; R24 never shows them then), and the sink's fields are the model's own (log entry 3). -/
def Obligations.ImmediateToRmMovCompletes : Prop :=
  ∀ (ext : BitVec 3) (rm : Rm) (v : Byte) (u : U16) (s : State), rm.WellFormed → sinkAnswer s = .ok →
    let fields (b1 : Byte) (w : BitVec 1) (imm : Int) : Latches :=
      modrmFields ext rm
        { Latches.empty with start := some s.cur, b1 := some b1, form := some .immRm, w := some w, imm := some imm }
    exec (.movRm8Imm8 ext rm v) s = .next (afterMov (2 + dispBytes rm + 1) (fields 0xC6#8 0#1 v.toInt)
      ("mov " ++ rmText .byte rm ++ ", " ++ keywordText "byte " rm ++ signedText v.toInt) s) ∧
    exec (.movRm16Imm16 ext rm u) s = .next (afterMov (2 + dispBytes rm + 2) (fields 0xC7#8 1#1 u.toInt)
      ("mov " ++ rmText .word rm ++ ", " ++ keywordText "word " rm ++ signedText u.toInt) s)

/-- R134, R118, R70, R18 (conflict choice C2): the two instructions of form `IMM_REG`. The immediate is unsigned. That the latches are still there after
the step is log entry 8 (DEDUCED; R24 never shows them then), and the sink's fields are the model's own (log entry 3). -/
def Obligations.ImmediateToRegisterMovCompletes : Prop :=
  ∀ (reg : BitVec 3) (v : Byte) (u : U16) (s : State), sinkAnswer s = .ok →
    let fields (b1 : Byte) (w : BitVec 1) (imm : Int) : Latches :=
      { Latches.empty with
        start := some s.cur, b1 := some b1, form := some .immReg, w := some w, reg := some reg, imm := some imm }
    exec (.movR8Imm8 reg v) s = .next (afterMov 2 (fields (0b10110#5 ++ reg) 0#1 (v.toNat : Int))
      ("mov " ++ registerName .byte reg ++ ", " ++ decNat v.toNat) s) ∧
    exec (.movR16Imm16 reg u) s = .next (afterMov 3 (fields (0b10111#5 ++ reg) 1#1 (u.toNat : Int))
      ("mov " ++ registerName .word reg ++ ", " ++ decNat u.toNat) s)

/-- R135, R136, R105, R119, R70, R18: the four accumulator instructions. The address is two bytes whatever the width. That
the latches are still there after the step is log entry 8 (DEDUCED; R24 never shows them then), and the sink's fields are the model's own
(log entry 3). -/
def Obligations.AccumulatorMovCompletes : Prop :=
  ∀ (a : U16) (s : State), sinkAnswer s = .ok →
    let fields (b1 : Byte) (form : Form) (d w : BitVec 1) : Latches :=
      { Latches.empty with
        start := some s.cur, b1 := some b1, form := some form, d := some d, w := some w, addr := some a }
    exec (.movAlMem a) s = .next (afterMov 3 (fields 0xA0#8 .memAcc 0#1 0#1) ("mov al, [" ++ decNat a.toNat ++ "]") s) ∧
    exec (.movAxMem a) s = .next (afterMov 3 (fields 0xA1#8 .memAcc 0#1 1#1) ("mov ax, [" ++ decNat a.toNat ++ "]") s) ∧
    exec (.movMemAl a) s = .next (afterMov 3 (fields 0xA2#8 .accMem 1#1 0#1) ("mov [" ++ decNat a.toNat ++ "], al") s) ∧
    exec (.movMemAx a) s = .next (afterMov 3 (fields 0xA3#8 .accMem 1#1 1#1) ("mov [" ++ decNat a.toNat ++ "], ax") s)

/-- R137, R181, R201, R208 (D8): the unsupported leading byte. It alone is consumed, no line is written, and one record is made and counted; under `SKIP` the run goes
on, under `ABORT` the same record is also `ERR` and the run is halted; every other element is unchanged. That the latches are still there after
the step is log entry 8 (DEDUCED; R24 never shows them then). -/
def Obligations.UnsupportedByteIsRecorded : Prop :=
  ∀ (b1 : Byte) (s : State),
    let record : ErrRec := ⟨.unsupportedInstruction, some s.cur, some b1, some (s.cur + 1), none, none⟩
    let fields : Latches := { Latches.empty with start := some s.cur, b1 := some b1, form := some .unsupported }
    (s.policy = some .skip → exec (.unsupported b1) s = .next
      { s with cur := s.cur + 1, latches := fields, log := s.log ++ [record], uCount := s.uCount + 1 }) ∧
    (s.policy = some .abort → exec (.unsupported b1) s = .next
      { s with
        cur := s.cur + 1, latches := fields, log := s.log ++ [record], uCount := s.uCount + 1, err := some record,
        run := .halted })

/-- R185, R189, R204 (D18, D28): a MOV whose line the sink refuses is consumed whole, its line is not in `OUT`, and the run is halted with the record of that
instruction. -/
def Obligations.RefusedLineHaltsRun : Prop :=
  ∀ (i : Instr) (s : State), i.WellFormed → (instrText i).isSome → sinkAnswer s = .fail →
    ∃ t record, exec i s = .next t ∧ record = ⟨.sinkFailure, some s.cur, (encode i).head?, some (s.cur + instrLength i), none, none⟩ ∧
      t.run = .halted ∧ t.err = some record ∧ t.log = s.log ++ [record] ∧ t.cur = s.cur + instrLength i ∧ t.out = s.out ∧
      t.uCount = s.uCount ∧ t.stream = s.stream ∧ t.len = s.len ∧ t.policy = s.policy

/-! ### The MOV forms, from the bytes of the stream -/

/-- R131, R18, R202: form `RM_REG` from its bytes. Direction and width come from the leading byte; the whole state after the step is given; a stream
that ends anywhere inside the instruction halts with `TruncatedStream`. That the latches are still there after the step is log entry 8
(DEDUCED; R24 never shows them then), and the sink's fields are the model's own (log entry 3). -/
def Obligations.StepOfRegisterMemoryMov : Prop :=
  ∀ (d w : BitVec 1) (reg : BitVec 3) (rm : Rm) (s : State), s.run = .ready → rm.WellFormed →
    let b1 : Byte := 0b100010#6 ++ d ++ w
    let bytes : List Byte := b1 :: modrmByte reg rm :: rmTail rm
    let width : Width := if w = 1#1 then .word else .byte
    let fields : Latches :=
      modrmFields reg rm
        { Latches.empty with start := some s.cur, b1 := some b1, form := some .rmReg, d := some d, w := some w }
    (s.holdsNext bytes → sinkAnswer s = .ok →
      step s = .next (afterMov bytes.length fields
        (if d = 1#1 then "mov " ++ registerName width reg ++ ", " ++ rmText width rm
          else "mov " ++ rmText width rm ++ ", " ++ registerName width reg) s)) ∧
    (∀ k, 0 < k → k < bytes.length → s.holdsNext (bytes.take k) → s.len = s.cur + k →
      ∃ t, step s = .next t ∧ HaltedTruncated s t)

/-- R133, R117, R168, R78, R18, R202 (D4, D9, D15): form `IMM_RM` from its bytes: signed immediate after the displacement, keyword exactly for a memory
destination, `b2[5:3]` reaching only the latches, `TruncatedStream` inside the instruction. That the latches are still there after the step
is log entry 8 (DEDUCED; R24 never shows them then), and the sink's fields are the model's own (log entry 3). -/
def Obligations.StepOfImmediateToRmMov : Prop :=
  ∀ (ext : BitVec 3) (rm : Rm) (v : Byte) (u : U16) (s : State), s.run = .ready → rm.WellFormed →
    let bytes8 : List Byte := 0xC6#8 :: modrmByte ext rm :: (rmTail rm ++ [v])
    let bytes16 : List Byte := 0xC7#8 :: modrmByte ext rm :: (rmTail rm ++ bytesOf u)
    let fields (b1 : Byte) (w : BitVec 1) (imm : Int) : Latches :=
      modrmFields ext rm
        { Latches.empty with start := some s.cur, b1 := some b1, form := some .immRm, w := some w, imm := some imm }
    (s.holdsNext bytes8 → sinkAnswer s = .ok →
      step s = .next (afterMov bytes8.length (fields 0xC6#8 0#1 v.toInt)
        ("mov " ++ rmText .byte rm ++ ", " ++ keywordText "byte " rm ++ signedText v.toInt) s)) ∧
    (s.holdsNext bytes16 → sinkAnswer s = .ok →
      step s = .next (afterMov bytes16.length (fields 0xC7#8 1#1 u.toInt)
        ("mov " ++ rmText .word rm ++ ", " ++ keywordText "word " rm ++ signedText u.toInt) s)) ∧
    (∀ k, 0 < k →
      (k < bytes8.length ∧ s.holdsNext (bytes8.take k) ∨ k < bytes16.length ∧ s.holdsNext (bytes16.take k)) →
      s.len = s.cur + k → ∃ t, step s = .next t ∧ HaltedTruncated s t)

/-- R134, R118, R18, R202 (conflict choice C2): form `IMM_REG` from its bytes: width and register from the leading byte, unsigned immediate,
`TruncatedStream` before the immediate. That the latches are still there after the step is log entry 8 (DEDUCED; R24 never shows them then),
and the sink's fields are the model's own (log entry 3). -/
def Obligations.StepOfImmediateToRegisterMov : Prop :=
  ∀ (reg : BitVec 3) (v lo hi : Byte) (s : State), s.run = .ready →
    let fields (b1 : Byte) (w : BitVec 1) (imm : Nat) : Latches :=
      { Latches.empty with
        start := some s.cur, b1 := some b1, form := some .immReg, w := some w, reg := some reg, imm := some (imm : Int) }
    (s.holdsNext [0b10110#5 ++ reg, v] → sinkAnswer s = .ok →
      step s = .next (afterMov 2 (fields (0b10110#5 ++ reg) 0#1 v.toNat)
        ("mov " ++ registerName .byte reg ++ ", " ++ decNat v.toNat) s)) ∧
    (s.holdsNext [0b10111#5 ++ reg, lo, hi] → sinkAnswer s = .ok →
      step s = .next (afterMov 3 (fields (0b10111#5 ++ reg) 1#1 (lo.toNat + 256 * hi.toNat))
        ("mov " ++ registerName .word reg ++ ", " ++ decNat (lo.toNat + 256 * hi.toNat)) s)) ∧
    (s.holdsNext [0b10110#5 ++ reg] → s.len = s.cur + 1 → ∃ t, step s = .next t ∧ HaltedTruncated s t) ∧
    (s.holdsNext [0b10111#5 ++ reg] → s.len < s.cur + 3 → ∃ t, step s = .next t ∧ HaltedTruncated s t)

/-- R135, R136, R105, R119, R18, R202: the accumulator forms from their bytes: the direction bit says which operand is written first, the width bit which
accumulator, the address is two bytes, `TruncatedStream` before the address. That the latches are still there after the step is log entry 8
(DEDUCED; R24 never shows them then), and the sink's fields are the model's own (log entry 3). -/
def Obligations.StepOfAccumulatorMov : Prop :=
  ∀ (d w : BitVec 1) (lo hi : Byte) (s : State), s.run = .ready →
    let b1 : Byte := 0b101000#6 ++ d ++ w
    let acc : String := if w = 1#1 then "ax" else "al"
    let mem : String := "[" ++ decNat (lo.toNat + 256 * hi.toNat) ++ "]"
    let fields : Latches :=
      { Latches.empty with
        start := some s.cur, b1 := some b1, form := some (if d = 0#1 then .memAcc else .accMem), d := some d, w := some w,
        addr := some (hi ++ lo) }
    (s.holdsNext [b1, lo, hi] → sinkAnswer s = .ok →
      step s = .next (afterMov 3 fields
        (if d = 0#1 then "mov " ++ acc ++ ", " ++ mem else "mov " ++ mem ++ ", " ++ acc) s)) ∧
    (s.holdsNext [b1] → s.len < s.cur + 3 → ∃ t, step s = .next t ∧ HaltedTruncated s t)

/-- R137, R15, R181, R187, R201 (D8 for the fields of the record): an unsupported leading byte from the stream, the last byte of the stream included:
exactly one byte is consumed, exactly one `UnsupportedInstruction` is reported for that byte and counted, no line is written, and `POLICY` says
whether the run goes on. -/
def Obligations.StepOfUnsupportedByte : Prop :=
  ∀ (b1 : Byte) (s : State), s.run = .ready → ¬ SupportedByte b1 → s.holdsNext [b1] →
    ∃ t r, step s = .next t ∧ t.cur = s.cur + 1 ∧ t.out = s.out ∧ t.log = s.log ++ [r] ∧ t.uCount = s.uCount + 1 ∧
      r.kind = .unsupportedInstruction ∧ r.start = some s.cur ∧ r.byte = some b1 ∧ r.atCur = some (s.cur + 1) ∧
      (s.policy = some .skip → t.run = .ready ∧ t.err = s.err) ∧ (s.policy = some .abort → t.run = .halted ∧ t.err = some r)

/-- R14, R94, R202 (D6, D8): what a `TruncatedStream` records: the instruction's index and leading byte, the cursor at the failing group, the group's size and
what was left of the stream; `CUR` stays at the failing group. -/
def Obligations.TruncationRecordLocatesInstruction : Prop :=
  ∀ (s : State) (b1 : Byte) (need avail : Nat) (c : Cursor), s.run = .ready → s.cur < s.len →
    Memory.read s.stream s.cur = some b1 → fetchInstr (cursorOf s) = .error (.truncated need avail) c →
    ∃ t, step s = .next t ∧ t.run = .halted ∧ t.cur = c.cur ∧ t.out = s.out ∧ t.uCount = s.uCount ∧
      avail = s.len - c.cur ∧ avail < need ∧
      t.err = some ⟨.truncatedStream, some s.cur, some b1, some c.cur, some need, some avail⟩ ∧
      t.log = s.log ++ [⟨.truncatedStream, some s.cur, some b1, some c.cur, some need, some avail⟩]

/-- R94, R186, R202 (D6, D8): a stream that ends inside an instruction halts the run, whatever the policy, with no line written: `CUR` stays at the
first read group that is not wholly there, and the record holds the instruction's index, its leading byte, that `CUR`, the group's length and
what is left of it. -/
def Obligations.TruncatedInstructionHaltsRun : Prop :=
  ∀ (i : Instr) (k : Nat) (s : State), s.run = .ready → i.WellFormed → 0 < k → k < (encode i).length →
    s.holdsNext ((encode i).take k) → s.len = s.cur + k →
    ∃ earlier need later t, readGroups i = earlier ++ need :: later ∧ 1 + earlier.sum ≤ k ∧ k < 1 + earlier.sum + need ∧
      step s = .next t ∧ t.cur = s.cur + (1 + earlier.sum) ∧ t.run = .halted ∧ t.out = s.out ∧ t.uCount = s.uCount ∧
      t.err = some ⟨.truncatedStream, some s.cur, (encode i).head?, some t.cur, some need, some (k - (1 + earlier.sum))⟩ ∧
      t.log = s.log ++
        [⟨.truncatedStream, some s.cur, (encode i).head?, some t.cur, some need, some (k - (1 + earlier.sum))⟩]

/-! ### The text -/

/-- R160 (D9 for the negative half): `dec(n)` is a `uint` of the grammar and its digits, read in base ten, give `n`; of a negative number it is `-` and at once the
magnitude. -/
def Obligations.DecimalTextReadsBack : Prop :=
  ∀ n : Nat, isUint (decNat n) = true ∧
    (decNat n).toList.foldl (fun v ch => 10 * v + (ch.toNat - 48)) 0 = n ∧
    dec (n : Int) = decNat n ∧ (0 < n → dec (-(n : Int)) = "-" ++ decNat n)

/-- R164: the text of a memory operand with an 8-bit displacement: zero is omitted, the sign is a token of its own. -/
def Obligations.Disp8TextOmitsZero : Prop :=
  ∀ (b : BitVec 3) (d : Int),
    (d = 0 → renderOp (.memBase .disp8 b d) = "[" ++ baseExpression b ++ "]") ∧
    (0 < d → renderOp (.memBase .disp8 b d) = "[" ++ baseExpression b ++ " + " ++ dec d ++ "]") ∧
    (d < 0 → renderOp (.memBase .disp8 b d) = "[" ++ baseExpression b ++ " - " ++ dec (-d) ++ "]")

/-- R165: the text of a memory operand with a 16-bit displacement: zero is written, with the `+` sign. -/
def Obligations.Disp16TextKeepsZero : Prop :=
  ∀ (b : BitVec 3) (d : Int),
    (0 ≤ d → renderOp (.memBase .disp16 b d) = "[" ++ baseExpression b ++ " + " ++ dec d ++ "]") ∧
    (d < 0 → renderOp (.memBase .disp16 b d) = "[" ++ baseExpression b ++ " - " ++ dec (-d) ++ "]")

/-- R161, R170 (D10, and D9 for a negative value; the spec's derivation): every line a MOV emits is a line of the grammar, its terminals written out,
and made of the characters of R161 only. The terminals of `base` are those of the `BASE` ROM, seven of them the spec's general knowledge
(log entry 12). -/
def Obligations.EveryLineIsInTheGrammar : Prop :=
  ∀ (i : Instr) (s : State), (instrText i).isSome → sinkAnswer s = .ok →
    ∃ t line, exec i s = .next t ∧ t.out = s.out ++ [line] ∧ IsLine line ∧ ∀ ch ∈ line.toList, ch ∈ lineCharacters

/-- R100, R101, R102, R105 (D17, G1: entries 0 and 2 to 7 of `BASE` are the spec's general knowledge, log entry 12): the contents of the two ROMs as the operand texts
read them, the accumulators being the entries of code 0. -/
def Obligations.OperandRomContents : Prop :=
  (List.ofFn fun k : Fin 8 => registerName .byte (BitVec.ofFin k)) = ["al", "cl", "dl", "bl", "ah", "ch", "dh", "bh"] ∧
  (List.ofFn fun k : Fin 8 => registerName .word (BitVec.ofFin k)) = ["ax", "cx", "dx", "bx", "sp", "bp", "si", "di"] ∧
  (List.ofFn fun k : Fin 8 => baseExpression (BitVec.ofFin k)) =
    ["bx + si", "bx + di", "bp + si", "bp + di", "si", "di", "bp", "bx"]
end

