-- ==== Sys2Proof/Laws/Memory.lean ====
section
/-!
SUPPORT. The stream as memory: what a loaded sequence reads as, and that its canonical form holds.
-/

namespace Sys2Proof.Machine

theorem Memory.ofBytesFrom_keys (k : Nat) (bs : List Byte) :
    (Memory.ofBytesFrom k bs).map Prod.fst = List.range' k bs.length := by
  induction bs generalizing k with
  | nil => rfl
  | cons b bs ih => simp [Memory.ofBytesFrom, ih, List.range'_succ]

/-- Every index of a loaded sequence has a byte, and no other index has. -/
theorem Memory.ofBytes_backs (bs : List Byte) : Memory.backs (Memory.ofBytes bs) bs.length = true := by
  simp [Memory.backs, Memory.ofBytes, Memory.ofBytesFrom_keys, List.range_eq_range']

/-- A stream whose indices are `0 .. LEN-1` is in canonical form. -/
theorem Memory.wf_of_backs {m : Memory} {n : Nat} (h : Memory.backs m n = true) : Memory.Wf m := by
  have h' : m.map Prod.fst = List.range n := by simpa [Memory.backs] using h
  have : (m.map Prod.fst).Pairwise (· < ·) := h' ▸ List.pairwise_lt_range
  simpa [Memory.Wf, List.pairwise_map] using this

/-- Loading keeps the canonical form (the one operation that writes the stream). -/
theorem Memory.ofBytes_wf (bs : List Byte) : Memory.Wf (Memory.ofBytes bs) :=
  Memory.wf_of_backs (Memory.ofBytes_backs bs)

theorem State.reset_stream_wf : Memory.Wf State.reset.stream := List.Pairwise.nil

theorem Memory.read_isSome_iff (m : Memory) (a : Nat) : (Memory.read m a).isSome ↔ a ∈ m.map Prod.fst := by
  induction m with
  | nil => simp [Memory.read]
  | cons c m ih =>
    obtain ⟨k, b⟩ := c
    by_cases h : k = a
    · simp [Memory.read, h]
    · simp only [Memory.read, h, if_false, ih]
      simp [Ne.symm h]

/-- In a backed stream an index has a byte exactly when it is below `LEN`. -/
theorem Memory.read_isSome_of_backs {m : Memory} {n : Nat} (h : Memory.backs m n = true) (a : Nat) :
    (Memory.read m a).isSome ↔ a < n := by
  have h' : m.map Prod.fst = List.range n := by simpa [Memory.backs] using h
  rw [Memory.read_isSome_iff, h', List.mem_range]

/-- A loaded sequence reads as itself, and as nothing outside. -/
theorem Memory.read_ofBytesFrom (k : Nat) (bs : List Byte) (j : Nat) :
    Memory.read (Memory.ofBytesFrom k bs) (k + j) = bs[j]? := by
  induction bs generalizing k j with
  | nil => rfl
  | cons b bs ih =>
    cases j with
    | zero => simp [Memory.ofBytesFrom, Memory.read]
    | succ j =>
      have h := ih (k + 1) j
      rw [Nat.add_right_comm, Nat.add_assoc] at h
      simpa [Memory.ofBytesFrom, Memory.read] using h

theorem Memory.read_ofBytes (bs : List Byte) (j : Nat) : Memory.read (Memory.ofBytes bs) j = bs[j]? := by
  simpa [Memory.ofBytes] using Memory.read_ofBytesFrom 0 bs j

/-! ### Bytes standing in a stream -/

@[simp] theorem Memory.holdsAt_nil (m : Memory) (len k : Nat) : Memory.holdsAt m len k [] ↔ k ≤ len := by
  simp [Memory.holdsAt]

theorem Memory.holdsAt_cons (m : Memory) (len k : Nat) (b : Byte) (bs : List Byte) :
    Memory.holdsAt m len k (b :: bs) ↔
      k < len ∧ Memory.read m k = some b ∧ Memory.holdsAt m len (k + 1) bs := by
  constructor
  · rintro ⟨hl, hr⟩
    simp only [List.length_cons] at hl
    refine ⟨by omega, hr 0 (by simp), by omega, fun j hj => ?_⟩
    have := hr (j + 1) (by simpa using hj)
    simpa [Nat.add_assoc, Nat.add_comm 1 j] using this
  · rintro ⟨hk, h0, hl, hr⟩
    refine ⟨by simp only [List.length_cons]; omega, fun j hj => ?_⟩
    cases j with
    | zero => simpa using h0
    | succ j =>
      have := hr j (by simpa using hj)
      simpa [Nat.add_assoc, Nat.add_comm 1 j] using this

theorem Memory.holdsAt_append (m : Memory) (len k : Nat) (as bs : List Byte) :
    Memory.holdsAt m len k (as ++ bs) ↔
      Memory.holdsAt m len k as ∧ Memory.holdsAt m len (k + as.length) bs := by
  induction as generalizing k with
  | nil =>
    simp only [List.nil_append, Memory.holdsAt_nil, List.length_nil, Nat.add_zero]
    exact ⟨fun h => ⟨by have := h.1; omega, h⟩, fun h => h.2⟩
  | cons a as ih =>
    simp only [List.cons_append, Memory.holdsAt_cons, ih, List.length_cons]
    rw [Nat.add_right_comm k 1, Nat.add_assoc k]
    tauto

/-- The bytes of a loaded sequence stand in its stream. -/
theorem Memory.holdsAt_ofBytes (as bs cs : List Byte) :
    Memory.holdsAt (Memory.ofBytes (as ++ bs ++ cs)) (as ++ bs ++ cs).length as.length bs := by
  refine ⟨by simp only [List.length_append]; omega, fun j hj => ?_⟩
  rw [Memory.read_ofBytes, List.append_assoc, List.getElem?_append_right (by omega)]
  simp [List.getElem?_append_left hj]

end Sys2Proof.Machine
end

