-- ==== Sys2Proof/Laws/Cursor.lean ====
section
/-!
SUPPORT. What each micro-operation of the cursor can do, said once: callers cite these and do not unfold the operations.
-/

namespace Sys2Proof.Machine

/-! ### Sequencing -/

theorem Decoder.bind_ok {α β : Type} {x : Decoder α} {f : α → Decoder β} {c c' : Cursor} {a : α}
    (h : x c = .ok a c') : (x >>= f) c = f a c' := by
  show EStateM.bind x f c = _
  simp [EStateM.bind, h]

theorem Decoder.bind_error {α β : Type} {x : Decoder α} {f : α → Decoder β} {c c' : Cursor} {e : Stop}
    (h : x c = .error e c') : (x >>= f) c = .error e c' := by
  show EStateM.bind x f c = _
  simp [EStateM.bind, h]

theorem Decoder.bind_eq_ok {α β : Type} {x : Decoder α} {f : α → Decoder β} {c c'' : Cursor} {b : β} :
    (x >>= f) c = .ok b c'' ↔ ∃ a c', x c = .ok a c' ∧ f a c' = .ok b c'' := by
  show EStateM.bind x f c = _ ↔ _
  cases h : x c <;> simp [EStateM.bind, h]

theorem Decoder.bind_eq_error {α β : Type} {x : Decoder α} {f : α → Decoder β} {c c'' : Cursor} {e : Stop} :
    (x >>= f) c = .error e c'' ↔
      x c = .error e c'' ∨ ∃ a c', x c = .ok a c' ∧ f a c' = .error e c'' := by
  show EStateM.bind x f c = _ ↔ _
  cases h : x c <;> simp [EStateM.bind, h]

@[simp] theorem Decoder.pure_apply {α : Type} (a : α) (c : Cursor) : (pure a : Decoder α) c = .ok a c := rfl

/-! ### The operations where they go on -/

theorem nextByte_ok {c : Cursor} {b : Byte} (hc : c.cur < c.len) (hb : Memory.read c.stream c.cur = some b) :
    nextByte c = .ok b { c with cur := c.cur + 1 } := by
  simp [nextByte, Nat.not_le.mpr hc, hb]

theorem need_ok {c : Cursor} {n : Nat} (h : n ≤ c.len - c.cur) : need n c = .ok () c := by
  simp [need, Nat.not_lt.mpr h]

theorem need_short {c : Cursor} {n : Nat} (h : c.len - c.cur < n) :
    need n c = .error (.truncated n (c.len - c.cur)) c := by
  simp [need, h]

theorem latch_apply (g : Latches → Latches) (c : Cursor) : latch g c = .ok () { c with latches := g c.latches } := rfl

theorem cursorIndex_apply (c : Cursor) : cursorIndex c = .ok c.cur c := rfl

theorem nextByte_of_holdsAt {c : Cursor} {b : Byte} {bs : List Byte}
    (h : Memory.holdsAt c.stream c.len c.cur (b :: bs)) : nextByte c = .ok b { c with cur := c.cur + 1 } := by
  obtain ⟨hc, hb, -⟩ := (Memory.holdsAt_cons ..).1 h
  exact nextByte_ok hc hb

theorem read16_of_holdsAt {c : Cursor} {lo hi : Byte} {bs : List Byte}
    (h : Memory.holdsAt c.stream c.len c.cur (lo :: hi :: bs)) :
    read16 c = .ok (littleEndian lo hi) { c with cur := c.cur + 2 } := by
  have h' := ((Memory.holdsAt_cons ..).1 h).2.2
  unfold read16
  rw [Decoder.bind_ok (nextByte_of_holdsAt h),
    Decoder.bind_ok (nextByte_of_holdsAt (c := { c with cur := c.cur + 1 }) h')]
  rfl

/-! ### What they can answer -/

theorem nextByte_eq_ok {c c' : Cursor} {b : Byte} :
    nextByte c = .ok b c' ↔ c.cur < c.len ∧ Memory.read c.stream c.cur = some b ∧ c' = { c with cur := c.cur + 1 } := by
  unfold nextByte
  by_cases hc : c.len ≤ c.cur
  · simp [hc, Nat.not_lt.mpr hc]
  · simp only [hc, if_false]
    cases hb : Memory.read c.stream c.cur <;> simp [Nat.not_le.mp hc, eq_comm]

theorem nextByte_eq_error {c c' : Cursor} {e : Stop} :
    nextByte c = .error e c' ↔
      c' = c ∧ ((c.len ≤ c.cur ∧ e = .cursorOverrun) ∨
        (c.cur < c.len ∧ Memory.read c.stream c.cur = none ∧ e = .unbacked c.cur)) := by
  unfold nextByte
  by_cases hc : c.len ≤ c.cur
  · simp [hc, Nat.not_lt.mpr hc, eq_comm, and_comm]
  · simp only [hc, if_false]
    cases hb : Memory.read c.stream c.cur <;> simp [Nat.not_le.mp hc, eq_comm, and_comm]

theorem need_eq_ok {c c' : Cursor} {n : Nat} {u : Unit} : need n c = .ok u c' ↔ n ≤ c.len - c.cur ∧ c' = c := by
  unfold need
  by_cases h : c.len - c.cur < n
  · simp [h, Nat.not_le.mpr h]
  · simp [h, Nat.not_lt.mp h, eq_comm]

theorem need_eq_error {c c' : Cursor} {n : Nat} {e : Stop} :
    need n c = .error e c' ↔ c.len - c.cur < n ∧ e = .truncated n (c.len - c.cur) ∧ c' = c := by
  unfold need
  by_cases h : c.len - c.cur < n
  · simp [h, eq_comm, and_comm]
  · simp [h]

end Sys2Proof.Machine
end

