-- ==== Sys2Proof/Laws/State.lean ====
section
/-!
SUPPORT. One lemma per field per named update of the state, each true by unfolding the update once.
-/

namespace Sys2Proof.Machine

/-! ### answered -/

@[simp] theorem answered_stream (s : State) : (answered s).stream = s.stream := rfl
@[simp] theorem answered_len (s : State) : (answered s).len = s.len := rfl
@[simp] theorem answered_cur (s : State) : (answered s).cur = s.cur := rfl
@[simp] theorem answered_run (s : State) : (answered s).run = s.run := rfl
@[simp] theorem answered_err (s : State) : (answered s).err = s.err := rfl
@[simp] theorem answered_log (s : State) : (answered s).log = s.log := rfl
@[simp] theorem answered_uCount (s : State) : (answered s).uCount = s.uCount := rfl
@[simp] theorem answered_out (s : State) : (answered s).out = s.out := rfl
@[simp] theorem answered_latches (s : State) : (answered s).latches = s.latches := rfl
@[simp] theorem answered_policy (s : State) : (answered s).policy = s.policy := rfl
@[simp] theorem answered_sinkAnswers (s : State) : (answered s).sinkAnswers = s.sinkAnswers.tail := rfl
@[simp] theorem answered_sinkSeq (s : State) : (answered s).sinkSeq = s.sinkSeq + 1 := rfl

/-! ### consume -/

@[simp] theorem consume_stream (n : Nat) (l : Latches) (s : State) : (consume n l s).stream = s.stream := rfl
@[simp] theorem consume_len (n : Nat) (l : Latches) (s : State) : (consume n l s).len = s.len := rfl
@[simp] theorem consume_cur (n : Nat) (l : Latches) (s : State) : (consume n l s).cur = s.cur + n := rfl
@[simp] theorem consume_run (n : Nat) (l : Latches) (s : State) : (consume n l s).run = s.run := rfl
@[simp] theorem consume_err (n : Nat) (l : Latches) (s : State) : (consume n l s).err = s.err := rfl
@[simp] theorem consume_log (n : Nat) (l : Latches) (s : State) : (consume n l s).log = s.log := rfl
@[simp] theorem consume_uCount (n : Nat) (l : Latches) (s : State) : (consume n l s).uCount = s.uCount := rfl
@[simp] theorem consume_out (n : Nat) (l : Latches) (s : State) : (consume n l s).out = s.out := rfl
@[simp] theorem consume_latches (n : Nat) (l : Latches) (s : State) : (consume n l s).latches = l := rfl
@[simp] theorem consume_policy (n : Nat) (l : Latches) (s : State) : (consume n l s).policy = s.policy := rfl
@[simp] theorem consume_sinkAnswers (n : Nat) (l : Latches) (s : State) : (consume n l s).sinkAnswers = s.sinkAnswers := rfl
@[simp] theorem consume_sinkSeq (n : Nat) (l : Latches) (s : State) : (consume n l s).sinkSeq = s.sinkSeq := rfl

/-! ### withCursor -/

@[simp] theorem withCursor_stream (c : Cursor) (s : State) : (withCursor c s).stream = c.stream := rfl
@[simp] theorem withCursor_len (c : Cursor) (s : State) : (withCursor c s).len = c.len := rfl
@[simp] theorem withCursor_cur (c : Cursor) (s : State) : (withCursor c s).cur = c.cur := rfl
@[simp] theorem withCursor_run (c : Cursor) (s : State) : (withCursor c s).run = s.run := rfl
@[simp] theorem withCursor_err (c : Cursor) (s : State) : (withCursor c s).err = s.err := rfl
@[simp] theorem withCursor_log (c : Cursor) (s : State) : (withCursor c s).log = s.log := rfl
@[simp] theorem withCursor_uCount (c : Cursor) (s : State) : (withCursor c s).uCount = s.uCount := rfl
@[simp] theorem withCursor_out (c : Cursor) (s : State) : (withCursor c s).out = s.out := rfl
@[simp] theorem withCursor_latches (c : Cursor) (s : State) : (withCursor c s).latches = c.latches := rfl
@[simp] theorem withCursor_policy (c : Cursor) (s : State) : (withCursor c s).policy = s.policy := rfl
@[simp] theorem withCursor_sinkAnswers (c : Cursor) (s : State) : (withCursor c s).sinkAnswers = s.sinkAnswers := rfl
@[simp] theorem withCursor_sinkSeq (c : Cursor) (s : State) : (withCursor c s).sinkSeq = s.sinkSeq := rfl

/-! ### endRun -/

@[simp] theorem endRun_stream (s : State) : (endRun s).stream = s.stream := rfl
@[simp] theorem endRun_len (s : State) : (endRun s).len = s.len := rfl
@[simp] theorem endRun_cur (s : State) : (endRun s).cur = s.cur := rfl
@[simp] theorem endRun_run (s : State) : (endRun s).run = .done := rfl
@[simp] theorem endRun_err (s : State) : (endRun s).err = s.err := rfl
@[simp] theorem endRun_log (s : State) : (endRun s).log = s.log := rfl
@[simp] theorem endRun_uCount (s : State) : (endRun s).uCount = s.uCount := rfl
@[simp] theorem endRun_out (s : State) : (endRun s).out = s.out := rfl
@[simp] theorem endRun_latches (s : State) : (endRun s).latches = Latches.empty := rfl
@[simp] theorem endRun_policy (s : State) : (endRun s).policy = s.policy := rfl
@[simp] theorem endRun_sinkAnswers (s : State) : (endRun s).sinkAnswers = s.sinkAnswers := rfl
@[simp] theorem endRun_sinkSeq (s : State) : (endRun s).sinkSeq = s.sinkSeq := rfl

/-! ### placeStream -/

@[simp] theorem placeStream_stream (bs : List Byte) (s : State) : (placeStream bs s).stream = Memory.ofBytes bs := rfl
@[simp] theorem placeStream_len (bs : List Byte) (s : State) : (placeStream bs s).len = bs.length := rfl
@[simp] theorem placeStream_cur (bs : List Byte) (s : State) : (placeStream bs s).cur = 0 := rfl
@[simp] theorem placeStream_run (bs : List Byte) (s : State) : (placeStream bs s).run = .ready := rfl
@[simp] theorem placeStream_err (bs : List Byte) (s : State) : (placeStream bs s).err = s.err := rfl
@[simp] theorem placeStream_log (bs : List Byte) (s : State) : (placeStream bs s).log = s.log := rfl
@[simp] theorem placeStream_uCount (bs : List Byte) (s : State) : (placeStream bs s).uCount = s.uCount := rfl
@[simp] theorem placeStream_out (bs : List Byte) (s : State) : (placeStream bs s).out = s.out := rfl
@[simp] theorem placeStream_latches (bs : List Byte) (s : State) : (placeStream bs s).latches = s.latches := rfl
@[simp] theorem placeStream_policy (bs : List Byte) (s : State) : (placeStream bs s).policy = s.policy := rfl
@[simp] theorem placeStream_sinkAnswers (bs : List Byte) (s : State) : (placeStream bs s).sinkAnswers = s.sinkAnswers := rfl
@[simp] theorem placeStream_sinkSeq (bs : List Byte) (s : State) : (placeStream bs s).sinkSeq = s.sinkSeq := rfl

/-! ### loaded -/

@[simp] theorem loaded_stream (bs : List Byte) (s : State) : (loaded bs s).stream = Memory.ofBytes bs := rfl
@[simp] theorem loaded_len (bs : List Byte) (s : State) : (loaded bs s).len = bs.length := rfl
@[simp] theorem loaded_cur (bs : List Byte) (s : State) : (loaded bs s).cur = 0 := rfl
@[simp] theorem loaded_run (bs : List Byte) (s : State) : (loaded bs s).run = .ready := rfl
@[simp] theorem loaded_err (bs : List Byte) (s : State) : (loaded bs s).err = none := rfl
@[simp] theorem loaded_log (bs : List Byte) (s : State) : (loaded bs s).log = [] := rfl
@[simp] theorem loaded_uCount (bs : List Byte) (s : State) : (loaded bs s).uCount = 0 := rfl
@[simp] theorem loaded_out (bs : List Byte) (s : State) : (loaded bs s).out = [] := rfl
@[simp] theorem loaded_latches (bs : List Byte) (s : State) : (loaded bs s).latches = Latches.empty := rfl
@[simp] theorem loaded_policy (bs : List Byte) (s : State) : (loaded bs s).policy = s.policy := rfl
@[simp] theorem loaded_sinkAnswers (bs : List Byte) (s : State) : (loaded bs s).sinkAnswers = s.sinkAnswers := rfl
@[simp] theorem loaded_sinkSeq (bs : List Byte) (s : State) : (loaded bs s).sinkSeq = s.sinkSeq := rfl

/-! ### raise -/

@[simp] theorem raise_stream (r : ErrRec) (s : State) : (raise r s).stream = s.stream := rfl
@[simp] theorem raise_len (r : ErrRec) (s : State) : (raise r s).len = s.len := rfl
@[simp] theorem raise_cur (r : ErrRec) (s : State) : (raise r s).cur = s.cur := rfl
@[simp] theorem raise_run (r : ErrRec) (s : State) : (raise r s).run = (if isSkipped r.kind s then s.run else .halted) := rfl
@[simp] theorem raise_err (r : ErrRec) (s : State) : (raise r s).err = (if isSkipped r.kind s then s.err else some r) := rfl
@[simp] theorem raise_log (r : ErrRec) (s : State) : (raise r s).log = s.log ++ [r] := rfl
@[simp] theorem raise_uCount (r : ErrRec) (s : State) : (raise r s).uCount = (if r.kind = .unsupportedInstruction then s.uCount + 1 else s.uCount) := rfl
@[simp] theorem raise_out (r : ErrRec) (s : State) : (raise r s).out = s.out := rfl
@[simp] theorem raise_latches (r : ErrRec) (s : State) : (raise r s).latches = s.latches := rfl
@[simp] theorem raise_policy (r : ErrRec) (s : State) : (raise r s).policy = s.policy := rfl
@[simp] theorem raise_sinkAnswers (r : ErrRec) (s : State) : (raise r s).sinkAnswers = s.sinkAnswers := rfl
@[simp] theorem raise_sinkSeq (r : ErrRec) (s : State) : (raise r s).sinkSeq = s.sinkSeq := rfl

/-! ### The cursor of a state -/

@[simp] theorem cursorOf_stream (s : State) : (cursorOf s).stream = s.stream := rfl
@[simp] theorem cursorOf_len (s : State) : (cursorOf s).len = s.len := rfl
@[simp] theorem cursorOf_cur (s : State) : (cursorOf s).cur = s.cur := rfl
@[simp] theorem cursorOf_latches (s : State) : (cursorOf s).latches = s.latches := rfl
@[simp] theorem cursorOf_withCursor (c : Cursor) (s : State) : cursorOf (withCursor c s) = c := rfl

/-- Only an `UnsupportedInstruction` can be skipped. -/
@[simp] theorem isSkipped_of_ne {k : ErrKind} (h : k ≠ .unsupportedInstruction) (s : State) : isSkipped k s = false := by
  simp [isSkipped, h]

theorem isSkipped_eq (k : ErrKind) (s : State) :
    isSkipped k s = true ↔ k = .unsupportedInstruction ∧ policyInForce s = .skip := by
  simp [isSkipped]

/-! ### Emitting a line: everything it can do -/

/-- An accepted line is appended to `OUT`, and nothing else changes but the sink's own fields. -/
theorem emit_ok {s : State} (h : sinkAnswer s = .ok) (line : String) :
    emit line s =
      { s with out := s.out ++ [line], sinkAnswers := s.sinkAnswers.tail, sinkSeq := s.sinkSeq + 1 } := by
  simp [emit, h, answered]

/-- A refused line leaves `OUT` alone and halts the run. -/
theorem emit_fail {s : State} (h : sinkAnswer s = .fail) (line : String) :
    emit line s =
      { s with
        run := .halted, err := some (sinkFailureRecord s), log := s.log ++ [sinkFailureRecord s],
        sinkAnswers := s.sinkAnswers.tail, sinkSeq := s.sinkSeq + 1 } := by
  simp [emit, h, raise, isSkipped, answered, sinkFailureRecord]

@[simp] theorem emit_stream (line : String) (s : State) : (emit line s).stream = s.stream := by
  cases h : sinkAnswer s <;> simp [emit_ok, emit_fail, h]
@[simp] theorem emit_len (line : String) (s : State) : (emit line s).len = s.len := by
  cases h : sinkAnswer s <;> simp [emit_ok, emit_fail, h]
@[simp] theorem emit_cur (line : String) (s : State) : (emit line s).cur = s.cur := by
  cases h : sinkAnswer s <;> simp [emit_ok, emit_fail, h]
@[simp] theorem emit_latches (line : String) (s : State) : (emit line s).latches = s.latches := by
  cases h : sinkAnswer s <;> simp [emit_ok, emit_fail, h]
@[simp] theorem emit_policy (line : String) (s : State) : (emit line s).policy = s.policy := by
  cases h : sinkAnswer s <;> simp [emit_ok, emit_fail, h]
@[simp] theorem emit_uCount (line : String) (s : State) : (emit line s).uCount = s.uCount := by
  cases h : sinkAnswer s <;> simp [emit_ok, emit_fail, h]
@[simp] theorem emit_sinkAnswers (line : String) (s : State) : (emit line s).sinkAnswers = s.sinkAnswers.tail := by
  cases h : sinkAnswer s <;> simp [emit_ok, emit_fail, h]
@[simp] theorem emit_sinkSeq (line : String) (s : State) : (emit line s).sinkSeq = s.sinkSeq + 1 := by
  cases h : sinkAnswer s <;> simp [emit_ok, emit_fail, h]

/-- The sink's answer depends only on the sink's own fields. -/
@[simp] theorem sinkAnswer_consume (n : Nat) (l : Latches) (s : State) : sinkAnswer (consume n l s) = sinkAnswer s := rfl

/-! ### Completing a MOV: everything it can do -/

theorem complete_ok {s : State} (h : sinkAnswer s = .ok) (n : Nat) (l : Latches) (i : DecodedInstruction) :
    complete n l i s =
      { s with
        cur := s.cur + n, latches := l, out := s.out ++ [render i], sinkAnswers := s.sinkAnswers.tail,
        sinkSeq := s.sinkSeq + 1 } :=
  emit_ok (s := consume n l s) h _

theorem complete_fail {s : State} (h : sinkAnswer s = .fail) (n : Nat) (l : Latches) (i : DecodedInstruction) :
    complete n l i s =
      let r : ErrRec := ⟨.sinkFailure, l.start, l.b1, some (s.cur + n), none, none⟩
      { s with
        cur := s.cur + n, latches := l, run := .halted, err := some r, log := s.log ++ [r],
        sinkAnswers := s.sinkAnswers.tail, sinkSeq := s.sinkSeq + 1 } :=
  emit_fail (s := consume n l s) h _

/-! ### What the host reads -/

@[simp] theorem readStatus_run (s : State) : (readStatus s).run = s.run := rfl
@[simp] theorem readStatus_err (s : State) : (readStatus s).err = s.err := rfl
@[simp] theorem readStatus_uCount (s : State) : (readStatus s).uCount = s.uCount := rfl
@[simp] theorem readStatus_cur (s : State) : (readStatus s).cur = s.cur := rfl
@[simp] theorem readStatus_len (s : State) : (readStatus s).len = s.len := rfl
@[simp] theorem readPolicy_eq (s : State) : readPolicy s = s.policy := rfl

end Sys2Proof.Machine
end

