-- ==== Sys2Proof/Laws/Decode.lean ====
section
/-!
SUPPORT. What the parts of the decoder read from the bytes of an encoding: the ModR/M operand, the immediates and addresses, and the
leading byte. Also the two readings of sign
extension and of operand texts, which agree.
-/

namespace Sys2Proof

open Sys2Proof.Machine

/-! ### Bits -/

@[simp] theorem littleEndian_bytes (v : U16) : littleEndian (lowByte v) (highByte v) = v := by
  unfold littleEndian lowByte highByte
  apply BitVec.eq_of_getLsbD_eq
  intro i hi
  simp only [BitVec.getLsbD_append, BitVec.getLsbD_extractLsb']
  by_cases h : i < 8
  · simp [h]
  · have : i - 8 < 8 := by omega
    simp [h, this, show 8 + (i - 8) = i by omega]

@[simp] theorem lowByte_littleEndian (lo hi : Byte) : lowByte (littleEndian lo hi) = lo := by
  unfold littleEndian lowByte
  apply BitVec.eq_of_getLsbD_eq
  intro i h
  rw [BitVec.getLsbD_extractLsb', BitVec.getLsbD_append]
  simp [h]

@[simp] theorem highByte_littleEndian (lo hi : Byte) : highByte (littleEndian lo hi) = hi := by
  unfold littleEndian highByte
  apply BitVec.eq_of_getLsbD_eq
  intro i h
  rw [BitVec.getLsbD_extractLsb', BitVec.getLsbD_append]
  simp [h]

/-- A two-byte quantity is `lo + 256 * hi` (R42). -/
theorem littleEndian_toNat (lo hi : Byte) : (littleEndian lo hi).toNat = lo.toNat + 256 * hi.toNat := by
  have h := lo.isLt
  unfold littleEndian
  rw [BitVec.toNat_append, ← Nat.shiftLeft_add_eq_or_of_lt h, Nat.shiftLeft_eq]
  omega

theorem sext8_eq_toInt (v : Byte) : sext8 v = v.toInt := by
  unfold sext8
  rw [BitVec.toInt_eq_toNat_cond]
  split <;> split <;> omega

theorem sext16_eq_toInt (v : U16) : sext16 v = v.toInt := by
  unfold sext16
  rw [BitVec.toInt_eq_toNat_cond]
  split <;> split <;> omega

theorem modrm_fields : ∀ (a : BitVec 2) (b c : BitVec 3),
    ((a ++ b ++ c : Byte).extractLsb' 6 2 = a) ∧ ((a ++ b ++ c : Byte).extractLsb' 3 3 = b) ∧
      ((a ++ b ++ c : Byte).extractLsb' 0 3 = c) := by
  decide

/-- A ModR/M byte is its three fields. -/
theorem modrm_split : ∀ b2 : Byte, (b2.extractLsb' 6 2 ++ b2.extractLsb' 3 3 ++ b2.extractLsb' 0 3 : Byte) = b2 := by
  decide

/-! ### The displacement length -/

@[simp] theorem rmTail_length {rm : Rm} (h : rm.WellFormed) : (rmTail rm).length = rmDispLength rm := by
  cases rm <;> simp_all [rmTail, rmDispLength, dispLength, rmModBits, rmBits, bytesOf, Rm.WellFormed]

/-- The length the machine reads off `mod` and `rm` is the one R68 gives the operand. -/
theorem rmDispLength_eq {rm : Rm} (h : rm.WellFormed) : rmDispLength rm = dispBytes rm := by
  cases rm <;> simp_all [rmDispLength, dispLength, rmModBits, rmBits, dispBytes, Rm.WellFormed]

/-! ### The parts of an encoding, read -/

theorem readAddress_of_holdsAt {c : Cursor} {a : U16} {bs : List Byte}
    (h : Memory.holdsAt c.stream c.len c.cur (bytesOf a ++ bs)) :
    readAddress c = .ok a { c with cur := c.cur + 2, latches := { c.latches with addr := some a } } := by
  have hl := h.1
  simp only [bytesOf, List.cons_append, List.nil_append, List.length_cons] at h hl
  unfold readAddress
  rw [Decoder.bind_ok (need_ok (by omega)), Decoder.bind_ok (read16_of_holdsAt h), littleEndian_bytes]
  rfl

theorem readDisp16_of_holdsAt {c : Cursor} {d : U16} {bs : List Byte}
    (h : Memory.holdsAt c.stream c.len c.cur (bytesOf d ++ bs)) :
    readDisp16 c = .ok d { c with cur := c.cur + 2, latches := { c.latches with disp := some (sext16 d) } } := by
  have hl := h.1
  simp only [bytesOf, List.cons_append, List.nil_append, List.length_cons] at h hl
  unfold readDisp16
  rw [Decoder.bind_ok (need_ok (by omega)), Decoder.bind_ok (read16_of_holdsAt h), littleEndian_bytes]
  rfl

theorem readDisp8_of_holdsAt {c : Cursor} {d : Byte} {bs : List Byte}
    (h : Memory.holdsAt c.stream c.len c.cur (d :: bs)) :
    readDisp8 c = .ok d { c with cur := c.cur + 1, latches := { c.latches with disp := some (sext8 d) } } := by
  have hl := h.1
  simp only [List.length_cons] at hl
  unfold readDisp8
  rw [Decoder.bind_ok (need_ok (by omega)), Decoder.bind_ok (nextByte_of_holdsAt h)]
  rfl

theorem readImm8_of_holdsAt {c : Cursor} {v : Byte} {bs : List Byte} (interp : Byte → Int)
    (h : Memory.holdsAt c.stream c.len c.cur (v :: bs)) :
    readImm8 interp c = .ok v { c with cur := c.cur + 1, latches := { c.latches with imm := some (interp v) } } := by
  have hl := h.1
  simp only [List.length_cons] at hl
  unfold readImm8
  rw [Decoder.bind_ok (need_ok (by omega)), Decoder.bind_ok (nextByte_of_holdsAt h)]
  rfl

theorem readImm16_of_holdsAt {c : Cursor} {v : U16} {bs : List Byte} (interp : U16 → Int)
    (h : Memory.holdsAt c.stream c.len c.cur (bytesOf v ++ bs)) :
    readImm16 interp c =
      .ok v { c with cur := c.cur + 2, latches := { c.latches with imm := some (interp v) } } := by
  have hl := h.1
  simp only [bytesOf, List.cons_append, List.nil_append, List.length_cons] at h hl
  unfold readImm16
  rw [Decoder.bind_ok (need_ok (by omega)), Decoder.bind_ok (read16_of_holdsAt h), littleEndian_bytes]
  rfl

theorem readModrm_of_holdsAt {c : Cursor} {reg : BitVec 3} {rm : Rm} {bs : List Byte}
    (h : Memory.holdsAt c.stream c.len c.cur (modrmByte reg rm :: bs)) :
    readModrm c = .ok (rmModBits rm, reg, rmBits rm)
      { c with
        cur := c.cur + 1
        latches := { c.latches with
          b2 := some (modrmByte reg rm), mod := some (rmModBits rm), reg := some reg, rm := some (rmBits rm) } } := by
  have hl := h.1
  simp only [List.length_cons] at hl
  obtain ⟨h1, h2, h3⟩ := modrm_fields (rmModBits rm) reg (rmBits rm)
  unfold readModrm
  rw [Decoder.bind_ok (need_ok (by omega)), Decoder.bind_ok (nextByte_of_holdsAt h)]
  simp only [modrmByte, h1, h2, h3]
  rfl

/-- The latches the bytes after a ModR/M byte add. -/
def tailLatches (rm : Rm) (l : Latches) : Latches :=
  match rm with
  | .reg _ => l
  | .noDisp _ => l
  | .direct a => { l with addr := some a }
  | .disp8 _ d => { l with disp := some (sext8 d) }
  | .disp16 _ d => { l with disp := some (sext16 d) }

theorem readRmTail_of_holdsAt {c : Cursor} {rm : Rm} (hw : rm.WellFormed) {bs : List Byte}
    (h : Memory.holdsAt c.stream c.len c.cur (rmTail rm ++ bs)) :
    readRmTail (rmModBits rm) (rmBits rm) c =
      .ok rm { c with cur := c.cur + rmDispLength rm, latches := tailLatches rm c.latches } := by
  cases rm with
  | reg rm => rfl
  | noDisp rm =>
    have : rm ≠ 0b110#3 := fun e => hw (e ▸ rfl)
    simp [readRmTail, rmModBits, rmBits, this, rmDispLength, dispLength, tailLatches]
  | direct a => exact Decoder.bind_ok (readAddress_of_holdsAt h)
  | disp8 rm d => exact Decoder.bind_ok (readDisp8_of_holdsAt h)
  | disp16 rm d => exact Decoder.bind_ok (readDisp16_of_holdsAt h)

theorem parseRm_of_holdsAt {c : Cursor} {reg : BitVec 3} {rm : Rm} (hw : rm.WellFormed) {bs : List Byte}
    (h : Memory.holdsAt c.stream c.len c.cur (modrmByte reg rm :: (rmTail rm ++ bs))) :
    parseRm c = .ok (reg, rm)
      { c with cur := c.cur + (1 + rmDispLength rm), latches := latchedModrm reg rm c.latches } := by
  have ht := ((Memory.holdsAt_cons ..).1 h).2.2
  unfold parseRm
  rw [Decoder.bind_ok (readModrm_of_holdsAt h)]
  refine (Decoder.bind_ok (readRmTail_of_holdsAt hw ht)).trans ?_
  rw [Decoder.pure_apply, Nat.add_assoc]
  cases rm <;> rfl

/-! ### The leading byte -/

/-- Dispatch finds a MOV form exactly for the bytes that match a pattern of R62. -/
theorem formOf_unsupported_iff : ∀ b1 : Byte, formOf b1 = .unsupported ↔ ¬ SupportedByte b1 := by
  decide

theorem leading_immReg8 : ∀ reg : BitVec 3,
    formOf (0b10110#5 ++ reg) = .immReg ∧ widthBit .immReg (0b10110#5 ++ reg) = 0#1 ∧
      (0b10110#5 ++ reg : Byte).extractLsb' 0 3 = reg := by
  decide

theorem leading_immReg16 : ∀ reg : BitVec 3,
    formOf (0b10111#5 ++ reg) = .immReg ∧ widthBit .immReg (0b10111#5 ++ reg) = 1#1 ∧
      (0b10111#5 ++ reg : Byte).extractLsb' 0 3 = reg := by
  decide

/-- A fetch whose leading byte is in the stream: what is latched, and where the form's own reads begin. -/
theorem fetchInstr_leading {c : Cursor} {b1 : Byte} {bs : List Byte}
    (h : Memory.holdsAt c.stream c.len c.cur (b1 :: bs)) :
    fetchInstr c =
      readForm b1
        { c with
          cur := c.cur + 1
          latches := dispatchLatches b1 { Latches.empty with start := some c.cur, b1 := some b1 } } := by
  unfold fetchInstr
  rw [Decoder.bind_ok (cursorIndex_apply c), Decoder.bind_ok (latch_apply _ c),
    Decoder.bind_ok (nextByte_of_holdsAt (c := { c with latches := { Latches.empty with start := some c.cur } }) h),
    Decoder.bind_ok (latch_apply _ _)]

/-! ### What a read that goes on has consumed -/

/-- From cursor `c` to cursor `d` exactly the bytes `bs` of the stream were consumed. -/
structure Consumed (c d : Cursor) (bs : List Byte) : Prop where
  holds : Memory.holdsAt c.stream c.len c.cur bs
  stream : d.stream = c.stream
  len : d.len = c.len
  cur : d.cur = c.cur + bs.length

theorem Consumed.append {c d e : Cursor} {as bs : List Byte} (h : Consumed c d as) (h' : Consumed d e bs) :
    Consumed c e (as ++ bs) where
  holds := by
    refine (Memory.holdsAt_append ..).2 ⟨h.holds, ?_⟩
    have := h'.holds
    rwa [h.stream, h.len, h.cur] at this
  stream := h'.stream.trans h.stream
  len := h'.len.trans h.len
  cur := by rw [h'.cur, h.cur, List.length_append, Nat.add_assoc]

theorem nextByte_consumed {c d : Cursor} {b : Byte} (h : nextByte c = .ok b d) : Consumed c d [b] := by
  obtain ⟨hl, hr, rfl⟩ := nextByte_eq_ok.1 h
  exact ⟨(Memory.holdsAt_cons ..).2 ⟨hl, hr, (Memory.holdsAt_nil ..).2 hl⟩, rfl, rfl, rfl⟩

theorem read16_consumed {c d : Cursor} {v : U16} (h : read16 c = .ok v d) : Consumed c d (bytesOf v) := by
  unfold read16 at h
  obtain ⟨lo, c1, h1, h2⟩ := Decoder.bind_eq_ok.1 h
  obtain ⟨hi, c2, h3, h4⟩ := Decoder.bind_eq_ok.1 h2
  cases h4
  have := (nextByte_consumed h1).append (nextByte_consumed h3)
  simpa [bytesOf] using this

/-- A one-byte read group: `need 1`, the byte, its latch. -/
theorem group8_consumed {c d : Cursor} {b : Byte} {g : Byte → Latches → Latches}
    (h : (do need 1; let v ← nextByte; latch (g v); return v : Decoder Byte) c = .ok b d) : Consumed c d [b] := by
  obtain ⟨u, c1, h1, h2⟩ := Decoder.bind_eq_ok.1 h
  obtain ⟨-, rfl⟩ := need_eq_ok.1 h1
  obtain ⟨v, c2, h3, h4⟩ := Decoder.bind_eq_ok.1 h2
  cases h4
  have h5 := nextByte_consumed h3
  exact ⟨h5.holds, h5.stream, h5.len, h5.cur⟩

/-- A two-byte read group: `need 2`, the bytes, their latch. -/
theorem group16_consumed {c d : Cursor} {v : U16} {g : U16 → Latches → Latches}
    (h : (do need 2; let v ← read16; latch (g v); return v : Decoder U16) c = .ok v d) :
    Consumed c d (bytesOf v) := by
  obtain ⟨u, c1, h1, h2⟩ := Decoder.bind_eq_ok.1 h
  obtain ⟨-, rfl⟩ := need_eq_ok.1 h1
  obtain ⟨w, c2, h3, h4⟩ := Decoder.bind_eq_ok.1 h2
  cases h4
  have h5 := read16_consumed h3
  exact ⟨h5.holds, h5.stream, h5.len, h5.cur⟩

theorem readAddress_consumed {c d : Cursor} {a : U16} (h : readAddress c = .ok a d) : Consumed c d (bytesOf a) :=
  group16_consumed (g := fun a l => { l with addr := some a }) h

theorem readDisp8_consumed {c d : Cursor} {b : Byte} (h : readDisp8 c = .ok b d) : Consumed c d [b] :=
  group8_consumed (g := fun b l => { l with disp := some (sext8 b) }) h

theorem readDisp16_consumed {c d : Cursor} {v : U16} (h : readDisp16 c = .ok v d) : Consumed c d (bytesOf v) :=
  group16_consumed (g := fun v l => { l with disp := some (sext16 v) }) h

theorem readImm8_consumed {interp : Byte → Int} {c d : Cursor} {b : Byte} (h : readImm8 interp c = .ok b d) :
    Consumed c d [b] :=
  group8_consumed (g := fun b l => { l with imm := some (interp b) }) h

theorem readImm16_consumed {interp : U16 → Int} {c d : Cursor} {v : U16} (h : readImm16 interp c = .ok v d) :
    Consumed c d (bytesOf v) :=
  group16_consumed (g := fun v l => { l with imm := some (interp v) }) h

theorem mod_cases : ∀ m : BitVec 2, m ≠ 0b11#2 → m ≠ 0b00#2 → m ≠ 0b01#2 → m = 0b10#2 := by decide

/-- The operand read for `mod` and `rm` has those fields, is well-formed, and its bytes were consumed. -/
theorem readRmTail_consumed {m : BitVec 2} {x : BitVec 3} {c d : Cursor} {rm : Rm}
    (h : readRmTail m x c = .ok rm d) :
    Consumed c d (rmTail rm) ∨ (rmTail rm = [] ∧ d = c) := by
  unfold readRmTail at h
  split at h
  · cases h; exact .inr ⟨rfl, rfl⟩
  split at h
  · split at h
    · obtain ⟨a, c1, h1, h2⟩ := Decoder.bind_eq_ok.1 h
      cases h2
      exact .inl (readAddress_consumed h1)
    · cases h; exact .inr ⟨rfl, rfl⟩
  split at h
  · obtain ⟨a, c1, h1, h2⟩ := Decoder.bind_eq_ok.1 h
    cases h2
    exact .inl (readDisp8_consumed h1)
  · obtain ⟨a, c1, h1, h2⟩ := Decoder.bind_eq_ok.1 h
    cases h2
    exact .inl (readDisp16_consumed h1)

theorem readRmTail_fields {m : BitVec 2} {x : BitVec 3} {c d : Cursor} {rm : Rm}
    (h : readRmTail m x c = .ok rm d) : rmModBits rm = m ∧ rmBits rm = x ∧ rm.WellFormed := by
  unfold readRmTail at h
  split at h
  · rename_i e; cases h; exact ⟨e.symm, rfl, by simp [Rm.WellFormed]⟩
  split at h
  · rename_i e
    split at h
    · rename_i e'
      obtain ⟨a, c1, h1, h2⟩ := Decoder.bind_eq_ok.1 h
      cases h2; exact ⟨e.symm, e'.symm, by simp [Rm.WellFormed]⟩
    · rename_i e'
      cases h; exact ⟨e.symm, rfl, by simpa [Rm.WellFormed] using e'⟩
  split at h
  · rename_i e
    obtain ⟨a, c1, h1, h2⟩ := Decoder.bind_eq_ok.1 h
    cases h2; exact ⟨e.symm, rfl, by simp [Rm.WellFormed]⟩
  · rename_i e1 e2 e3
    obtain ⟨a, c1, h1, h2⟩ := Decoder.bind_eq_ok.1 h
    cases h2; exact ⟨(mod_cases m e1 e2 e3).symm, rfl, by simp [Rm.WellFormed]⟩

/-- A ModR/M operand that was read is well-formed and its bytes are `b2` and its tail. -/
theorem parseRm_consumed {c d : Cursor} {reg : BitVec 3} {rm : Rm} (h : parseRm c = .ok (reg, rm) d) :
    rm.WellFormed ∧ Consumed c d (modrmByte reg rm :: rmTail rm) := by
  unfold parseRm at h
  obtain ⟨⟨m, r, x⟩, c1, h1, h2⟩ := Decoder.bind_eq_ok.1 h
  obtain ⟨op, c2, h3, h4⟩ := Decoder.bind_eq_ok.1 h2
  cases h4
  unfold readModrm at h1
  obtain ⟨u, c3, h5, h6⟩ := Decoder.bind_eq_ok.1 h1
  obtain ⟨-, rfl⟩ := need_eq_ok.1 h5
  obtain ⟨b2, c4, h7, h8⟩ := Decoder.bind_eq_ok.1 h6
  cases h8
  obtain ⟨e1, e2, hw⟩ := readRmTail_fields h3
  have hb : modrmByte (b2.extractLsb' 3 3) rm = b2 := by
    rw [modrmByte, e1, e2]; exact modrm_split b2
  have h9 := nextByte_consumed h7
  refine ⟨hw, ?_⟩
  rw [hb]
  rcases readRmTail_consumed h3 with h10 | ⟨h10, rfl⟩
  · exact Consumed.append (as := [b2]) ⟨h9.holds, h9.stream, h9.len, h9.cur⟩
      ⟨h10.holds, h10.stream, h10.len, h10.cur⟩
  · rw [h10]; exact ⟨h9.holds, h9.stream, h9.len, h9.cur⟩

/-- A fetch that went on has read a leading byte, and the rest by the leading byte's form. -/
theorem fetchInstr_eq_ok {c d : Cursor} {i : Instr} (h : fetchInstr c = .ok i d) :
    ∃ b1, c.cur < c.len ∧ Memory.read c.stream c.cur = some b1 ∧
      readForm b1
        { c with
          cur := c.cur + 1
          latches := dispatchLatches b1 { Latches.empty with start := some c.cur, b1 := some b1 } } = .ok i d := by
  unfold fetchInstr at h
  obtain ⟨st, c1, h1, h2⟩ := Decoder.bind_eq_ok.1 h
  cases h1
  obtain ⟨u, c2, h3, h4⟩ := Decoder.bind_eq_ok.1 h2
  cases h3
  obtain ⟨b1, c3, h5, h6⟩ := Decoder.bind_eq_ok.1 h4
  obtain ⟨hl, hr, rfl⟩ := nextByte_eq_ok.1 h5
  obtain ⟨v, c4, h7, h8⟩ := Decoder.bind_eq_ok.1 h6
  cases h7
  exact ⟨b1, hl, hr, h8⟩

/-! ### Completing a MOV -/

/-- A MOV whose line the sink accepts leaves the state `afterMov` names. -/
theorem complete_eq_afterMov {s : State} (h : sinkAnswer s = .ok) (n : Nat) (l : Latches) (i : DecodedInstruction) :
    complete n l i s = afterMov n l (render i) s :=
  complete_ok h n l i

theorem latchedModrm_eq (reg : BitVec 3) (rm : Rm) (l : Latches) (hd : l.disp = none) (ha : l.addr = none) :
    latchedModrm reg rm l = modrmFields reg rm l := by
  cases rm <;> simp [latchedModrm, modrmFields, rmDisp, rmAddr, hd, ha, sext8_eq_toInt, sext16_eq_toInt]

/-! ### The text of operands -/

theorem renderOp_rmOperand (w : Width) (rm : Rm) : renderOp (rmOperand w rm) = rmText w rm := by
  cases rm with
  | reg rm => rfl
  | noDisp rm => rfl
  | direct a => rfl
  | disp8 rm d =>
    simp only [rmOperand, renderOp, rmText, renderBaseDisp, magnitude, sext8_eq_toInt]
    split
    · rfl
    · by_cases h : 0 < d.toInt
      · rw [if_pos (by omega), if_pos h, show d.toInt.natAbs = d.toInt.toNat by omega]
      · rw [if_neg (by omega), if_neg h, show d.toInt.natAbs = (-d.toInt).toNat by omega]
  | disp16 rm d =>
    simp only [rmOperand, renderOp, rmText, renderBaseDisp, magnitude, sext16_eq_toInt]
    split
    · rw [show d.toInt.natAbs = d.toInt.toNat by omega]
    · rw [show d.toInt.natAbs = (-d.toInt).toNat by omega]

theorem dec_eq_signedText (v : Int) : dec v = signedText v := by
  cases v with
  | ofNat n => simp [dec, signedText]
  | negSucc n =>
    rw [dec, signedText, if_neg (by omega), Int.neg_negSucc]
    rfl

end Sys2Proof
end

