-- ==== Sys2Proof/Laws/PerInstr.lean ====
section
/-!
SUPPORT. Facts of every instruction as syntax, one lemma per constructor: the encoding of a well-formed instruction has the length of
R70 and a leading byte that dispatch sends to the instruction's own form.
-/

namespace Sys2Proof.Laws.Encoding

open Sys2Proof.Machine

/-- The encoding has the length of R70, and its leading byte dispatches to the form. -/
def Statement (i : Instr) : Prop :=
  i.WellFormed → (encode i).length = instrLength i ∧ (encode i).head?.map formOf = some (instrForm i)

theorem rmTail_length_eq (rm : Rm) : (rmTail rm).length = dispBytes rm := by
  cases rm <;> rfl

theorem movRm8R8 (reg : BitVec 3) (rm : Rm) : Statement (.movRm8R8 reg rm) := fun _ =>
  ⟨by simp [encode, instrLength, rmTail_length_eq]; omega, rfl⟩

theorem movRm16R16 (reg : BitVec 3) (rm : Rm) : Statement (.movRm16R16 reg rm) := fun _ =>
  ⟨by simp [encode, instrLength, rmTail_length_eq]; omega, rfl⟩

theorem movR8Rm8 (reg : BitVec 3) (rm : Rm) : Statement (.movR8Rm8 reg rm) := fun _ =>
  ⟨by simp [encode, instrLength, rmTail_length_eq]; omega, rfl⟩

theorem movR16Rm16 (reg : BitVec 3) (rm : Rm) : Statement (.movR16Rm16 reg rm) := fun _ =>
  ⟨by simp [encode, instrLength, rmTail_length_eq]; omega, rfl⟩

theorem movRm8Imm8 (ext : BitVec 3) (rm : Rm) (imm : Byte) : Statement (.movRm8Imm8 ext rm imm) := fun _ =>
  ⟨by simp [encode, instrLength, rmTail_length_eq]; omega, rfl⟩

theorem movRm16Imm16 (ext : BitVec 3) (rm : Rm) (imm : U16) : Statement (.movRm16Imm16 ext rm imm) := fun _ =>
  ⟨by simp [encode, instrLength, rmTail_length_eq, bytesOf]; omega, rfl⟩

theorem movR8Imm8 (reg : BitVec 3) (imm : Byte) : Statement (.movR8Imm8 reg imm) := fun _ =>
  ⟨rfl, congrArg some (leading_immReg8 reg).1⟩

theorem movR16Imm16 (reg : BitVec 3) (imm : U16) : Statement (.movR16Imm16 reg imm) := fun _ =>
  ⟨rfl, congrArg some (leading_immReg16 reg).1⟩

theorem movAlMem (addr : U16) : Statement (.movAlMem addr) := fun _ => ⟨rfl, rfl⟩

theorem movAxMem (addr : U16) : Statement (.movAxMem addr) := fun _ => ⟨rfl, rfl⟩

theorem movMemAl (addr : U16) : Statement (.movMemAl addr) := fun _ => ⟨rfl, rfl⟩

theorem movMemAx (addr : U16) : Statement (.movMemAx addr) := fun _ => ⟨rfl, rfl⟩

theorem unsupported (b1 : Byte) : Statement (.unsupported b1) := fun h =>
  ⟨rfl, congrArg some ((formOf_unsupported_iff b1).2 (of_decide_eq_true h))⟩

end Sys2Proof.Laws.Encoding
end

