-- ==== Sys2Proof/Tests/Slice0.lean ====
section
/-!
SUPPORT. Tests. The expected values are the spec's own vectors (`95_test_vectors.md`: S1 to S5, V, E and P) or are read off its encodings
bit by bit; each comment names the vector. After the tests: for every statement with hypotheses, a state and operands that meet
them, clause by clause.
-/

namespace Sys2Proof.Tests

open Sys2Proof.Machine

/-! ### Small states -/

/-- A run just loaded with a stream: header emitted, eight accepting answers of the sink to come. -/
def demo (p : Policy) (bs : List Byte) : State :=
  { State.reset with
    stream := Memory.ofBytes bs, len := bs.length, run := .ready, out := ["bits 16", ""], policy := some p,
    sinkAnswers := List.replicate 8 .ok }

/-- The same with a sink that refuses the next line. -/
def demoRefusing (bs : List Byte) : State := { demo .skip bs with sinkAnswers := [.fail] }

/-- Before a load: policy set, no run in progress. -/
def demoIdle (answers : List SinkAnswer) : State := { State.reset with policy := some .skip, sinkAnswers := answers }

/-- The last line of `OUT`, the cursor, and whether the run goes on. -/
def seen : Answer → Option (Option String × Nat × Run)
  | .next t => some (t.out.getLast?, t.cur, t.run)
  | .fault _ => none
  | .refused _ => none

/-- The log, the cursor, the run state and the count. -/
def logged : Answer → Option (List ErrRec × Nat × Run × Nat)
  | .next t => some (t.log, t.cur, t.run, t.uCount)
  | .fault _ => none
  | .refused _ => none

/-! ### Well-formedness: an ill-formed term for each check -/

theorem test_wf_refuses_base_rm110 :
    [Instr.movRm8R8 0#3 (.noDisp 6#3), .movRm16R16 0#3 (.noDisp 6#3), .movR8Rm8 0#3 (.noDisp 6#3),
      .movR16Rm16 0#3 (.noDisp 6#3), .movRm8Imm8 0#3 (.noDisp 6#3) 0#8, .movRm16Imm16 0#3 (.noDisp 6#3) 0#16].all
      (fun i => !i.wellFormed) = true := by decide

theorem test_wf_refuses_supported_byte :
    [0x88#8, 0x8B#8, 0xC6#8, 0xC7#8, 0xB0#8, 0xBF#8, 0xA0#8, 0xA3#8].all (fun b => !(Instr.unsupported b).wellFormed) = true := by
  decide

theorem test_wf_accepts :
    [Instr.movRm8R8 7#3 (.direct 0#16), .movR16Rm16 0#3 (.disp8 6#3 0#8), .unsupported 0x87#8, .unsupported 0x8C#8,
      .unsupported 0xA4#8, .unsupported 0xC5#8, .unsupported 0xC8#8].all (fun i => i.wellFormed) = true := by decide

/-! ### Decoding, from words written bit by bit, and back -/

/-- R63, V1: `100010 d w`, `mod reg rm`. -/
theorem test_decode_movRm8R8 :
    decode [0b10001000#8, 0b11000001#8] = .ok (.movRm8R8 0#3 (.reg 1#3), 2) ∧
      encode (.movRm8R8 0#3 (.reg 1#3)) = [0b10001000#8, 0b11000001#8] := by decide
/-- V7: a direct address, low byte first. -/
theorem test_decode_movRm16R16 :
    decode [0b10001001#8, 0b00011110#8, 0x34#8, 0x12#8] = .ok (.movRm16R16 3#3 (.direct 0x1234#16), 4) ∧
      encode (.movRm16R16 3#3 (.direct 0x1234#16)) = [0b10001001#8, 0b00011110#8, 0x34#8, 0x12#8] := by decide
/-- V27: an 8-bit displacement. -/
theorem test_decode_movR8Rm8 :
    decode [0b10001010#8, 0b01000000#8, 0xFE#8] = .ok (.movR8Rm8 0#3 (.disp8 0#3 0xFE#8), 3) ∧
      encode (.movR8Rm8 0#3 (.disp8 0#3 0xFE#8)) = [0b10001010#8, 0b01000000#8, 0xFE#8] := by decide
/-- V19: a 16-bit displacement. -/
theorem test_decode_movR16Rm16 :
    decode [0b10001011#8, 0b10000001#8, 0x00#8, 0x80#8] = .ok (.movR16Rm16 0#3 (.disp16 1#3 0x8000#16), 4) ∧
      encode (.movR16Rm16 0#3 (.disp16 1#3 0x8000#16)) = [0b10001011#8, 0b10000001#8, 0x00#8, 0x80#8] := by decide
/-- R64, V41: `1100011 w`, the immediate after the address; `b2[5:3] = 111` is kept. -/
theorem test_decode_movRm8Imm8 :
    decode [0b11000110#8, 0b00111110#8, 0x00#8, 0x00#8, 0x07#8] = .ok (.movRm8Imm8 7#3 (.direct 0#16) 7#8, 5) ∧
      encode (.movRm8Imm8 7#3 (.direct 0#16) 7#8) = [0b11000110#8, 0b00111110#8, 0x00#8, 0x00#8, 0x07#8] := by decide
/-- V56: the longest instruction. -/
theorem test_decode_movRm16Imm16 :
    decode [0b11000111#8, 0b10000110#8, 0x00#8, 0x01#8, 0x02#8, 0x03#8] =
      .ok (.movRm16Imm16 0#3 (.disp16 6#3 0x0100#16) 0x0302#16, 6) ∧
      encode (.movRm16Imm16 0#3 (.disp16 6#3 0x0100#16) 0x0302#16) =
        [0b11000111#8, 0b10000110#8, 0x00#8, 0x01#8, 0x02#8, 0x03#8] := by decide
/-- R65, V60: `1011 w reg`. -/
theorem test_decode_movR8Imm8 :
    decode [0b10110001#8, 0x0C#8] = .ok (.movR8Imm8 1#3 12#8, 2) ∧
      encode (.movR8Imm8 1#3 12#8) = [0b10110001#8, 0x0C#8] := by decide
/-- V66. -/
theorem test_decode_movR16Imm16 :
    decode [0b10111100#8, 0x00#8, 0x80#8] = .ok (.movR16Imm16 4#3 0x8000#16, 3) ∧
      encode (.movR16Imm16 4#3 0x8000#16) = [0b10111100#8, 0x00#8, 0x80#8] := by decide
/-- R66, V72: `101000 d w`. -/
theorem test_decode_movAlMem :
    decode [0b10100000#8, 0xFF#8, 0xFF#8] = .ok (.movAlMem 0xFFFF#16, 3) ∧
      encode (.movAlMem 0xFFFF#16) = [0b10100000#8, 0xFF#8, 0xFF#8] := by decide
/-- V70. -/
theorem test_decode_movAxMem :
    decode [0b10100001#8, 0xFB#8, 0x09#8] = .ok (.movAxMem 0x09FB#16, 3) ∧
      encode (.movAxMem 0x09FB#16) = [0b10100001#8, 0xFB#8, 0x09#8] := by decide
/-- V74. -/
theorem test_decode_movMemAl :
    decode [0b10100010#8, 0x34#8, 0x12#8] = .ok (.movMemAl 0x1234#16, 3) ∧
      encode (.movMemAl 0x1234#16) = [0b10100010#8, 0x34#8, 0x12#8] := by decide
/-- V75. -/
theorem test_decode_movMemAx :
    decode [0b10100011#8, 0x0F#8, 0x00#8] = .ok (.movMemAx 15#16, 3) ∧
      encode (.movMemAx 15#16) = [0b10100011#8, 0x0F#8, 0x00#8] := by decide
/-- R72, R75: the neighbours of every pattern, and the segment-register MOV of E22. -/
theorem test_decode_unsupported :
    [0x87#8, 0x8C#8, 0x9F#8, 0xA4#8, 0xAF#8, 0xC0#8, 0xC5#8, 0xC8#8].all
      (fun b => decide (decode [b, 0xD8#8] = .ok (.unsupported b, 1) ∧ encode (.unsupported b) = [b])) = true := by decide

/-- A table word is laid out from its least significant byte (the task's numbering): `89 D9`. -/
theorem test_decodeTableWord : decodeTableWord 16 0xD989 = some (.movRm16R16 3#3 (.reg 1#3)) := by decide

/-- A placed word is what the next step runs. -/
theorem test_withFetchWord :
    step (State.reset.withFetchWord 16 0xD989) =
      exec (.movRm16R16 3#3 (.reg 1#3)) (State.reset.withFetchWord 16 0xD989) := by rfl

/-! ### One step -/

/-- V2. -/
theorem test_step_movRm8R8 :
    seen (step (demo .abort [0x88#8, 0x0F#8])) = some (some "mov [bx], cl", 2, .ready) := by decide +kernel
/-- S1. -/
theorem test_step_movRm16R16 :
    seen (step (demo .abort [0x89#8, 0xD9#8])) = some (some "mov cx, bx", 2, .ready) := by decide +kernel
/-- V27. -/
theorem test_step_movR8Rm8 :
    seen (step (demo .abort [0x8A#8, 0x40#8, 0xFE#8])) = some (some "mov al, [bx + si - 2]", 3, .ready) := by decide +kernel
/-- S2: the displacement `DB` is -37. -/
theorem test_step_movR16Rm16 :
    seen (step (demo .abort [0x8B#8, 0x41#8, 0xDB#8])) = some (some "mov ax, [bx + di - 37]", 3, .ready) := by
  decide +kernel
/-- V24: a zero 16-bit displacement is written. -/
theorem test_step_movR16Rm16_zero_disp16 :
    seen (step (demo .abort [0x8B#8, 0x86#8, 0x00#8, 0x00#8])) = some (some "mov ax, [bp + 0]", 4, .ready) := by
  decide +kernel
/-- V49: a negative displacement and a negative immediate. -/
theorem test_step_movRm8Imm8 :
    seen (step (demo .abort [0xC6#8, 0x40#8, 0xFF#8, 0x80#8])) = some (some "mov [bx + si - 1], byte -128", 4, .ready) := by
  decide +kernel
/-- V48: register destination, no keyword, still signed. -/
theorem test_step_movRm8Imm8_register :
    seen (step (demo .abort [0xC6#8, 0xC1#8, 0xFF#8])) = some (some "mov cl, -1", 3, .ready) := by decide +kernel
/-- V55. -/
theorem test_step_movRm16Imm16 :
    seen (step (demo .abort [0xC7#8, 0x06#8, 0x34#8, 0x12#8, 0x78#8, 0x56#8])) =
      some (some "mov [4660], word 22136", 6, .ready) := by decide +kernel
/-- V62: unsigned. -/
theorem test_step_movR8Imm8 :
    seen (step (demo .abort [0xB0#8, 0xFF#8])) = some (some "mov al, 255", 2, .ready) := by decide +kernel
/-- V67: unsigned. -/
theorem test_step_movR16Imm16 :
    seen (step (demo .abort [0xBF#8, 0xFF#8, 0xFF#8])) = some (some "mov di, 65535", 3, .ready) := by decide +kernel
/-- V72. -/
theorem test_step_movAlMem :
    seen (step (demo .abort [0xA0#8, 0xFF#8, 0xFF#8])) = some (some "mov al, [65535]", 3, .ready) := by decide +kernel
/-- S5. -/
theorem test_step_movAxMem :
    seen (step (demo .abort [0xA1#8, 0xFB#8, 0x09#8])) = some (some "mov ax, [2555]", 3, .ready) := by decide +kernel
/-- V74. -/
theorem test_step_movMemAl :
    seen (step (demo .abort [0xA2#8, 0x34#8, 0x12#8])) = some (some "mov [4660], al", 3, .ready) := by decide +kernel
/-- V75. -/
theorem test_step_movMemAx :
    seen (step (demo .abort [0xA3#8, 0x0F#8, 0x00#8])) = some (some "mov [15], ax", 3, .ready) := by decide +kernel
/-- E22, first step. -/
theorem test_step_unsupported_skip :
    logged (step (demo .skip [0x8C#8, 0xD8#8])) =
      some ([⟨.unsupportedInstruction, some 0, some 0x8C#8, some 1, none, none⟩], 1, .ready, 1) := by decide
/-- E23. -/
theorem test_step_unsupported_abort :
    logged (step (demo .abort [0x8E#8, 0xD8#8])) =
      some ([⟨.unsupportedInstruction, some 0, some 0x8E#8, some 1, none, none⟩], 1, .halted, 1) := by decide
/-- E1: the empty stream. -/
theorem test_step_end_of_stream : logged (step (demo .abort [])) = some ([], 0, .done, 0) := by decide
/-- E9: half an immediate, no byte of it consumed. -/
theorem test_step_truncated :
    logged (step (demo .skip [0xC7#8, 0x06#8, 0x34#8, 0x12#8, 0x07#8])) =
      some ([⟨.truncatedStream, some 0, some 0xC7#8, some 4, some 2, some 1⟩], 4, .halted, 0) := by decide
/-- P5, its last step: the sink refuses the line. -/
theorem test_step_sink_failure :
    logged (step (demoRefusing [0x89#8, 0xD9#8])) =
      some ([⟨.sinkFailure, some 0, some 0x89#8, some 2, none, none⟩], 2, .halted, 0) := by decide
/-- P6: the loader fails. -/
theorem test_load_failure :
    logged (loadFailed State.reset) = some ([⟨.loadFailure, none, none, none, none, none⟩], 0, .halted, 0) := by decide

/-- R14, R184, R185: the sink refuses the second header line; `at` is `CUR`, 0. -/
theorem test_header_failure :
    logged (load [0x89#8] (demoIdle [.ok, .fail])) =
      some ([⟨.sinkFailure, none, none, some 0, none, none⟩], 0, .halted, 0) := by decide
/-- R22: `POLICY` is readable before and after it is set, and during a run. -/
theorem test_readPolicy :
    readPolicy State.reset = none ∧ readPolicy (demoIdle []) = some .skip ∧ readPolicy (demo .abort []) = some .abort := by
  decide

/-- R164, R165: the corner cases the rules name. -/
theorem test_render_displacements :
    [renderOp (.memBase .disp8 1#3 (-37)), renderOp (.memBase .disp8 6#3 0), renderOp (.memBase .disp8 1#3 (-128)),
      renderOp (.memBase .disp8 1#3 127), renderOp (.memBase .disp16 7#3 0), renderOp (.memBase .disp16 1#3 (-32768)),
      renderOp (.memBase .disp16 5#3 901), renderOp (.memBase .disp16 1#3 (-1))] =
    ["[bx + di - 37]", "[bp]", "[bx + di - 128]", "[bx + di + 127]", "[bx + 0]", "[bx + di - 32768]", "[di + 901]",
      "[bx + di - 1]"] := by decide +kernel

/-- R184: the header as characters. -/
theorem test_header_characters : asCharacters [headerDirective, headerBlank] = "bits 16\n\n" := by decide +kernel

/-! ### Witnesses: the hypotheses of each statement can be met together -/

theorem demo_holds (p : Policy) (bs cs : List Byte) : (demo p (bs ++ cs)).holdsNext bs :=
  Memory.holdsAt_ofBytes [] bs cs

theorem demo_holds_all (p : Policy) (bs : List Byte) : (demo p bs).holdsNext bs := by
  simpa using demo_holds p bs []

theorem cursor_holds (bs cs : List Byte) :
    Memory.holdsAt (cursorOver (bs ++ cs)).stream (cursorOver (bs ++ cs)).len (cursorOver (bs ++ cs)).cur bs :=
  Memory.holdsAt_ofBytes [] bs cs

theorem demo_inv (p : Policy) (bs : List Byte) : State.Inv (demo p bs) where
  stream_backed := Memory.ofBytes_backs bs
  cur_le_len := Nat.zero_le _
  halted_iff_err := by simp [demo, State.reset]
  done_at_end := by simp [demo]
  err_is_last := by simp [demo, State.reset]
  uCount_counts := rfl
  uCount_le_cur := Nat.le_refl _
  live_log_skipped := by simp [demo, State.reset]

theorem witness_LoadStartsFreshRun :
    (demoIdle [.ok, .ok]).run ≠ .ready ∧ (demoIdle [.ok, .ok]).policy ≠ none ∧
      (demoIdle [.ok, .ok]).sinkAnswers = .ok :: .ok :: [] := by decide

theorem witness_LoadedStreamReadsAsItsBytes : ∃ t, load [0x89#8, 0xD9#8] (demoIdle [.ok, .ok]) = .next t := ⟨_, rfl⟩

theorem witness_RefusedHeaderHaltsRun :
    (demoIdle [.fail]).run ≠ .ready ∧ (demoIdle [.fail]).policy ≠ none ∧ (demoIdle [.fail]).sinkAnswers = .fail :: [] ∧
      (demoIdle [.ok, .fail]).run ≠ .ready ∧ (demoIdle [.ok, .fail]).policy ≠ none ∧
      (demoIdle [.ok, .fail]).sinkAnswers = .ok :: .fail :: [] := by decide

theorem witness_LoadFailureHaltsRun : State.reset.run ≠ .ready := by decide

theorem witness_DisabledTransactionsAreRefused :
    State.reset.run ≠ .ready ∧ State.reset.policy = none ∧ (demoIdle []).run ≠ .ready ∧ (demo .skip []).run = .ready := by
  decide

/-- A `cfg` and each of the other transactions. -/
theorem witness_PolicyReadsAsLastSet :
    (∃ t, transact (.cfg .abort) State.reset = .next t) ∧ (∃ t, transact (.load [0x89#8]) (demoIdle [.ok, .ok]) = .next t) ∧
      (∃ t, transact .loadFailure (demoIdle []) = .next t) ∧ ∃ t, transact .step (demo .skip [0x89#8]) = .next t :=
  ⟨⟨_, rfl⟩, ⟨_, rfl⟩, ⟨_, rfl⟩, _, rfl⟩

/-- A cursor below the end (the last byte, R93's corner case) and one at it. -/
theorem witness_NextByteReadsAndAdvances :
    let c := cursorOver [0x89#8]
    let e : Cursor := { c with cur := 1 }
    Memory.backs c.stream c.len = true ∧ c.cur < c.len ∧ Memory.backs e.stream e.len = true ∧ e.len ≤ e.cur := by decide

theorem witness_Read16IsLittleEndian :
    Memory.backs (cursorOver [0xFB#8, 0x09#8]).stream (cursorOver [0xFB#8, 0x09#8]).len = true ∧
      need 2 (cursorOver [0xFB#8, 0x09#8]) = .ok () (cursorOver [0xFB#8, 0x09#8]) := ⟨by decide, rfl⟩

theorem witness_CursorOverrunHaltsMachine : (demo .skip []).len ≤ (demo .skip []).cur := by decide

/-- A direct address and the largest displacement, in front of other bytes. -/
theorem witness_DecodeOfEncode :
    (Instr.movRm16R16 3#3 (.direct 0x1234#16)).WellFormed ∧
      (let c := cursorOver ([0x89#8, 0x1E#8, 0x34#8, 0x12#8] ++ [0x90#8]);
        Memory.holdsAt c.stream c.len c.cur (encode (.movRm16R16 3#3 (.direct 0x1234#16)))) :=
  ⟨by decide, cursor_holds [0x89#8, 0x1E#8, 0x34#8, 0x12#8] [0x90#8]⟩

theorem witness_EncodeOfDecode :
    ∃ d, fetchInstr (cursorOver [0x8B#8, 0x41#8, 0xDB#8]) = .ok (.movR16Rm16 0#3 (.disp8 1#3 0xDB#8)) d := ⟨_, rfl⟩

/-- The same instruction at two places. -/
theorem witness_RegisterMemoryLatchesDetermineBytes :
    ∃ d d', fetchInstr (cursorOver [0x8B#8, 0x41#8, 0xDB#8]) = .ok (.movR16Rm16 0#3 (.disp8 1#3 0xDB#8)) d ∧
      fetchInstr { cursorOver [0x90#8, 0x8B#8, 0x41#8, 0xDB#8] with cur := 1 } = .ok (.movR16Rm16 0#3 (.disp8 1#3 0xDB#8)) d' ∧
      d.latches.form = some .rmReg ∧ d'.latches.form = some .rmReg ∧ d.latches.w = d'.latches.w ∧
      d.latches.mod = d'.latches.mod ∧ d.latches.reg = d'.latches.reg ∧ d.latches.rm = d'.latches.rm ∧
      d.latches.d = d'.latches.d ∧ d.latches.disp = d'.latches.disp ∧ d.latches.addr = d'.latches.addr :=
  ⟨_, _, rfl, rfl, rfl, rfl, rfl, rfl, rfl, rfl, rfl, rfl, rfl⟩

/-- The shortest and the longest truncation of a six-byte instruction. -/
theorem witness_TruncatedEncodingStops :
    let i := Instr.movRm16Imm16 0#3 (.direct 0x1234#16) 0x5678#16
    ∀ k ∈ [1, 5], i.WellFormed ∧ 0 < k ∧ k < (encode i).length ∧
      (let c := cursorOver ((encode i).take k);
        Memory.holdsAt c.stream c.len c.cur ((encode i).take k) ∧ c.len = c.cur + k) := by
  intro i k hk
  simp only [List.mem_cons, List.not_mem_nil, or_false] at hk
  rcases hk with rfl | rfl
  · exact ⟨by decide, by decide, by decide, by simpa using cursor_holds ((encode i).take 1) [], by decide⟩
  · exact ⟨by decide, by decide, by decide, by simpa using cursor_holds ((encode i).take 5) [], by decide⟩

/-- The same two bytes ahead, at different indices and under different policies. -/
theorem witness_DecodeDependsOnlyOnComingBytes :
    let s := demo .skip [0xB1#8, 0x0C#8]
    let s' := { demo .abort [0x90#8, 0xB1#8, 0x0C#8] with cur := 1 }
    s.run = .ready ∧ s'.run = .ready ∧ s.len - s.cur = s'.len - s'.cur ∧
      (∀ k, Memory.read s.stream (s.cur + k) = Memory.read s'.stream (s'.cur + k)) ∧ sinkAnswer s = .ok ∧
      sinkAnswer s' = .ok ∧ (∃ t, step s = .next t) ∧ ∃ t', step s' = .next t' := by
  refine ⟨rfl, rfl, rfl, fun k => ?_, rfl, rfl, ⟨_, rfl⟩, ⟨_, rfl⟩⟩
  simp [demo, State.reset, Memory.read_ofBytes, Nat.add_comm 1 k]

theorem witness_StepRunsDecodedInstruction :
    (demo .skip [0x89#8, 0xD9#8]).run = .ready ∧ (demo .skip [0x89#8, 0xD9#8]).cur < (demo .skip [0x89#8, 0xD9#8]).len ∧
      ∃ c, fetchInstr (cursorOf (demo .skip [0x89#8, 0xD9#8])) = .ok (.movRm16R16 3#3 (.reg 1#3)) c :=
  ⟨rfl, by decide, _, rfl⟩

theorem witness_StepRunsEncodedInstruction :
    (demo .skip [0x0F#8]).run = .ready ∧ (Instr.unsupported 0x0F#8).WellFormed ∧
      (demo .skip [0x0F#8]).holdsNext (encode (.unsupported 0x0F#8)) :=
  ⟨rfl, by decide, demo_holds_all .skip [0x0F#8]⟩

theorem witness_MeaningAgreesWithFetch :
    ∃ c, fetchInstr (cursorOf (demo .skip [0xC6#8, 0x07#8, 0xFF#8])) = .ok (.movRm8Imm8 0#3 (.noDisp 7#3) 0xFF#8) c :=
  ⟨_, rfl⟩

theorem witness_EndOfStreamEndsRun : (demo .skip []).run = .ready ∧ (demo .skip []).cur = (demo .skip []).len := by decide

/-- One state for each of the three outcomes: the end, a line, an error that halts and one that is skipped. -/
theorem witness_StepDoesExactlyOneThing :
    ∀ bs ∈ [[], [0xB1#8, 0x0C#8], [0x89#8], [0x0F#8]],
      (demo .skip bs).Inv ∧ (demo .skip bs).run = .ready ∧ ∃ t, step (demo .skip bs) = .next t := by
  intro bs hbs
  simp only [List.mem_cons, List.not_mem_nil, or_false] at hbs
  rcases hbs with rfl | rfl | rfl | rfl <;> exact ⟨demo_inv .skip _, rfl, _, rfl⟩

theorem witness_LoopNeverOverrunsCursor : (demo .skip [0x89#8]).Inv ∧ (demo .skip [0x89#8]).run = .ready :=
  ⟨demo_inv .skip _, rfl⟩

theorem witness_StepOnlyMovesForward : ∃ t, step (demo .skip [0x89#8, 0xD9#8]) = .next t := ⟨_, rfl⟩

theorem witness_StepKeepsInvariant :
    (demo .abort [0x0F#8]).Inv ∧ ∃ t, step (demo .abort [0x0F#8]) = .next t :=
  ⟨demo_inv .abort _, _, rfl⟩

theorem idle_inv (answers : List SinkAnswer) : State.Inv (demoIdle answers) where
  stream_backed := rfl
  cur_le_len := Nat.le_refl _
  halted_iff_err := by simp [demoIdle, State.reset]
  done_at_end := by simp [demoIdle, State.reset]
  err_is_last := by simp [demoIdle, State.reset]
  uCount_counts := rfl
  uCount_le_cur := Nat.le_refl _
  live_log_skipped := by simp [demoIdle, State.reset]

/-- One state for each transaction. -/
theorem witness_TransactionsKeepInvariant :
    ((demoIdle []).Inv ∧ ∃ t, transact (.cfg .abort) (demoIdle []) = .next t) ∧
    ((demoIdle [.ok, .ok]).Inv ∧ ∃ t, transact (.load [0x89#8]) (demoIdle [.ok, .ok]) = .next t) ∧
    ((demoIdle []).Inv ∧ ∃ t, transact .loadFailure (demoIdle []) = .next t) ∧
    ((demo .skip [0x89#8]).Inv ∧ ∃ t, transact .step (demo .skip [0x89#8]) = .next t) :=
  ⟨⟨idle_inv _, _, rfl⟩, ⟨idle_inv _, _, rfl⟩, ⟨idle_inv _, _, rfl⟩, ⟨demo_inv .skip _, _, rfl⟩⟩

theorem demo_started (p : Policy) (bs : List Byte) : (demo p bs).Started := ⟨List.prefix_rfl, by simp [demo]⟩

/-- A load that starts a run, and the step that ends one well. -/
theorem witness_HeaderStandsFirst :
    (((demoIdle [.ok, .ok]).run = .ready ∨ (demoIdle [.ok, .ok]).run = .done → (demoIdle [.ok, .ok]).Started) ∧
      ∃ t, transact (.load [0x89#8]) (demoIdle [.ok, .ok]) = .next t ∧ t.run = .ready) ∧
    (((demo .skip []).run = .ready ∨ (demo .skip []).run = .done → (demo .skip []).Started) ∧
      ∃ t, transact .step (demo .skip []) = .next t ∧ t.run = .done) :=
  ⟨⟨by simp [demoIdle, State.reset], _, rfl, rfl⟩, fun _ => demo_started .skip [], _, rfl, rfl⟩

theorem witness_RunEndsWithinStepBound :
    (demo .skip [0xFF#8, 0xFF#8, 0xFF#8]).Inv ∧ (demo .skip [0xFF#8, 0xFF#8, 0xFF#8]).run = .ready :=
  ⟨demo_inv .skip _, rfl⟩

/-- `B1 0C`, `89 D9`. -/
theorem witness_StreamOfMovsIsDecodedWhole :
    let is := [Instr.movR8Imm8 1#3 12#8, .movRm16R16 3#3 (.reg 1#3)]
    let s := demo .skip [0xB1#8, 0x0C#8, 0x89#8, 0xD9#8]
    (∀ i ∈ is, i.WellFormed ∧ (instrText i).isSome) ∧ s.run = .ready ∧ s.holdsNext (is.flatMap encode) ∧
      s.len = s.cur + (is.flatMap encode).length ∧
      s.sinkAnswers = List.replicate is.length .ok ++ List.replicate 6 .ok :=
  ⟨by simp [instrText, Instr.WellFormed, Instr.wellFormed], rfl, demo_holds_all .skip [0xB1#8, 0x0C#8, 0x89#8, 0xD9#8], rfl, rfl⟩

/-- The neighbours of the patterns. -/
theorem witness_SkippedBytesAreEachRecorded :
    let bs := [0x87#8, 0x8C#8, 0xA4#8, 0xC5#8, 0xC8#8]
    (∀ b ∈ bs, ¬ SupportedByte b) ∧ (demo .skip bs).run = .ready ∧ (demo .skip bs).policy = some .skip ∧
      (demo .skip bs).holdsNext bs :=
  ⟨by decide, rfl, rfl, demo_holds_all .skip [0x87#8, 0x8C#8, 0xA4#8, 0xC5#8, 0xC8#8]⟩

/-- Every operand class, at the edges of its fields. -/
theorem witness_RegisterMemoryMovCompletes :
    ∀ rm ∈ [Rm.reg 7#3, .noDisp 0#3, .noDisp 7#3, .direct 0xFFFF#16, .disp8 6#3 0#8, .disp8 0#3 0x80#8, .disp16 6#3 0x8000#16],
      rm.WellFormed ∧ sinkAnswer (demo .skip []) = .ok := by decide

theorem witness_ImmediateToRmMovCompletes :
    ∀ rm ∈ [Rm.reg 0#3, .noDisp 5#3, .direct 0#16, .disp8 6#3 0#8, .disp16 7#3 0xFFFF#16],
      rm.WellFormed ∧ sinkAnswer (demo .abort []) = .ok := by decide

theorem witness_ImmediateToRegisterMovCompletes : sinkAnswer (demo .skip []) = .ok := by decide

theorem witness_AccumulatorMovCompletes : sinkAnswer (demo .abort []) = .ok := by decide

theorem witness_UnsupportedByteIsRecorded :
    (demo .skip [0x0F#8]).policy = some .skip ∧ (demo .abort [0x0F#8]).policy = some .abort := by decide

theorem witness_RefusedLineHaltsRun :
    (Instr.movMemAx 15#16).WellFormed ∧ (instrText (.movMemAx 15#16)).isSome ∧ sinkAnswer (demoRefusing []) = .fail := by
  decide

/-- The completing clause, and the truncated one at its first and last cut. -/
theorem witness_StepOfRegisterMemoryMov :
    let bytes : List Byte := (0b100010#6 ++ 1#1 ++ 1#1) :: modrmByte 0#3 (.disp16 1#3 0x8000#16) :: rmTail (.disp16 1#3 0x8000#16)
    (Rm.disp16 1#3 0x8000#16).WellFormed ∧ (demo .skip bytes).run = .ready ∧ (demo .skip bytes).holdsNext bytes ∧
      sinkAnswer (demo .skip bytes) = .ok ∧
      ∀ k ∈ [1, 3], 0 < k ∧ k < bytes.length ∧ (demo .skip (bytes.take k)).run = .ready ∧
        (demo .skip (bytes.take k)).holdsNext (bytes.take k) ∧ (demo .skip (bytes.take k)).len = (demo .skip (bytes.take k)).cur + k := by
  intro bytes
  refine ⟨by decide, rfl, demo_holds_all .skip bytes, rfl, fun k hk => ?_⟩
  have hlen : bytes.length = 4 := rfl
  simp only [List.mem_cons, List.not_mem_nil, or_false] at hk
  refine ⟨by omega, by omega, rfl, demo_holds_all .skip _, ?_⟩
  simp [demo, State.reset, hlen]
  omega

/-- Both widths completing, and each truncated inside its immediate. -/
theorem witness_StepOfImmediateToRmMov :
    let bytes8 : List Byte := 0xC6#8 :: modrmByte 7#3 (.direct 0#16) :: (rmTail (.direct 0#16) ++ [0x80#8])
    let bytes16 : List Byte := 0xC7#8 :: modrmByte 7#3 (.direct 0#16) :: (rmTail (.direct 0#16) ++ bytesOf 0x8000#16)
    (Rm.direct 0#16).WellFormed ∧
      ((demo .skip bytes8).run = .ready ∧ (demo .skip bytes8).holdsNext bytes8 ∧ sinkAnswer (demo .skip bytes8) = .ok) ∧
      ((demo .skip bytes16).run = .ready ∧ (demo .skip bytes16).holdsNext bytes16 ∧ sinkAnswer (demo .skip bytes16) = .ok) ∧
      (0 < 4 ∧ 4 < bytes8.length ∧ (demo .skip (bytes8.take 4)).holdsNext (bytes8.take 4) ∧
        (demo .skip (bytes8.take 4)).len = (demo .skip (bytes8.take 4)).cur + 4) ∧
      (0 < 5 ∧ 5 < bytes16.length ∧ (demo .skip (bytes16.take 5)).holdsNext (bytes16.take 5) ∧
        (demo .skip (bytes16.take 5)).len = (demo .skip (bytes16.take 5)).cur + 5) := by
  intro bytes8 bytes16
  exact ⟨by decide, ⟨rfl, demo_holds_all .skip _, rfl⟩, ⟨rfl, demo_holds_all .skip _, rfl⟩,
    ⟨by decide, by decide, demo_holds_all .skip _, rfl⟩, ⟨by decide, by decide, demo_holds_all .skip _, rfl⟩⟩

/-- The four clauses, the word form truncated with no byte and with one byte of its immediate there. -/
theorem witness_StepOfImmediateToRegisterMov :
    ((demo .skip [0b10110#5 ++ 1#3, 12#8]).run = .ready ∧
      (demo .skip [0b10110#5 ++ 1#3, 12#8]).holdsNext [0b10110#5 ++ 1#3, 12#8] ∧
      sinkAnswer (demo .skip [0b10110#5 ++ 1#3, 12#8]) = .ok) ∧
    ((demo .skip [0b10111#5 ++ 7#3, 0xFF#8, 0xFF#8]).holdsNext [0b10111#5 ++ 7#3, 0xFF#8, 0xFF#8] ∧
      sinkAnswer (demo .skip [0b10111#5 ++ 7#3, 0xFF#8, 0xFF#8]) = .ok) ∧
    ((demo .skip [0b10110#5 ++ 1#3]).holdsNext [0b10110#5 ++ 1#3] ∧
      (demo .skip [0b10110#5 ++ 1#3]).len = (demo .skip [0b10110#5 ++ 1#3]).cur + 1) ∧
    ((demo .skip [0b10111#5 ++ 0#3]).holdsNext [0b10111#5 ++ 0#3] ∧
      (demo .skip [0b10111#5 ++ 0#3]).len < (demo .skip [0b10111#5 ++ 0#3]).cur + 3) ∧
    ((demo .skip ([0b10111#5 ++ 0#3] ++ [0x34#8])).holdsNext [0b10111#5 ++ 0#3] ∧
      (demo .skip ([0b10111#5 ++ 0#3] ++ [0x34#8])).len < (demo .skip ([0b10111#5 ++ 0#3] ++ [0x34#8])).cur + 3) :=
  ⟨⟨rfl, demo_holds_all .skip _, rfl⟩, ⟨demo_holds_all .skip _, rfl⟩, ⟨demo_holds_all .skip _, rfl⟩,
    ⟨demo_holds_all .skip _, by decide⟩, ⟨demo_holds .skip [0b10111#5 ++ 0#3] [0x34#8], by decide⟩⟩

/-- Both clauses, the second with no byte and with one byte of the address there. -/
theorem witness_StepOfAccumulatorMov :
    ((demo .skip [0b101000#6 ++ 1#1 ++ 0#1, 0x34#8, 0x12#8]).run = .ready ∧
      (demo .skip [0b101000#6 ++ 1#1 ++ 0#1, 0x34#8, 0x12#8]).holdsNext [0b101000#6 ++ 1#1 ++ 0#1, 0x34#8, 0x12#8] ∧
      sinkAnswer (demo .skip [0b101000#6 ++ 1#1 ++ 0#1, 0x34#8, 0x12#8]) = .ok) ∧
    ((demo .skip [0b101000#6 ++ 1#1 ++ 0#1]).run = .ready ∧
      (demo .skip [0b101000#6 ++ 1#1 ++ 0#1]).holdsNext [0b101000#6 ++ 1#1 ++ 0#1] ∧
      (demo .skip [0b101000#6 ++ 1#1 ++ 0#1]).len < (demo .skip [0b101000#6 ++ 1#1 ++ 0#1]).cur + 3) ∧
    ((demo .skip ([0b101000#6 ++ 1#1 ++ 0#1] ++ [0x0F#8])).run = .ready ∧
      (demo .skip ([0b101000#6 ++ 1#1 ++ 0#1] ++ [0x0F#8])).holdsNext [0b101000#6 ++ 1#1 ++ 0#1] ∧
      (demo .skip ([0b101000#6 ++ 1#1 ++ 0#1] ++ [0x0F#8])).len <
        (demo .skip ([0b101000#6 ++ 1#1 ++ 0#1] ++ [0x0F#8])).cur + 3) :=
  ⟨⟨rfl, demo_holds_all .skip _, rfl⟩, ⟨rfl, demo_holds_all .skip _, by decide⟩, rfl, demo_holds .skip [0b101000#6 ++ 1#1 ++ 0#1] [0x0F#8], by decide⟩

/-- The last byte of the stream, under both policies. -/
theorem witness_StepOfUnsupportedByte :
    (demo .skip [0xC8#8]).run = .ready ∧ ¬ SupportedByte 0xC8#8 ∧ (demo .skip [0xC8#8]).holdsNext [0xC8#8] ∧
      (demo .skip [0xC8#8]).policy = some .skip ∧ (demo .abort [0xC8#8]).run = .ready ∧
      (demo .abort [0xC8#8]).holdsNext [0xC8#8] ∧ (demo .abort [0xC8#8]).policy = some .abort :=
  ⟨rfl, by decide, demo_holds_all .skip _, rfl, rfl, demo_holds_all .abort _, rfl⟩

/-- E4. -/
theorem witness_TruncationRecordLocatesInstruction :
    (demo .skip [0x8B#8, 0x06#8, 0xFB#8]).run = .ready ∧
      (demo .skip [0x8B#8, 0x06#8, 0xFB#8]).cur < (demo .skip [0x8B#8, 0x06#8, 0xFB#8]).len ∧
      Memory.read (demo .skip [0x8B#8, 0x06#8, 0xFB#8]).stream (demo .skip [0x8B#8, 0x06#8, 0xFB#8]).cur = some 0x8B#8 ∧
      ∃ c, fetchInstr (cursorOf (demo .skip [0x8B#8, 0x06#8, 0xFB#8])) = .error (.truncated 2 1) c :=
  ⟨rfl, by decide, by decide, _, rfl⟩

/-- The shortest and the longest truncation of a six-byte instruction, under either policy. -/
theorem witness_TruncatedInstructionHaltsRun :
    let i := Instr.movRm16Imm16 0#3 (.direct 0x1234#16) 0x5678#16
    ∀ p ∈ [Policy.abort, .skip], ∀ k ∈ [1, 5],
      (demo p ((encode i).take k)).run = .ready ∧ i.WellFormed ∧ 0 < k ∧ k < (encode i).length ∧
        (demo p ((encode i).take k)).holdsNext ((encode i).take k) ∧
        (demo p ((encode i).take k)).len = (demo p ((encode i).take k)).cur + k := by
  intro i p _ k hk
  simp only [List.mem_cons, List.not_mem_nil, or_false] at hk
  rcases hk with rfl | rfl <;> exact ⟨rfl, by decide, by decide, by decide, demo_holds_all p _, rfl⟩

theorem witness_DecimalTextReadsBack : 0 < 2555 := by decide

/-- The values next to zero on each side. -/
theorem witness_Disp8TextOmitsZero : (0 : Int) = 0 ∧ (0 : Int) < 1 ∧ (-1 : Int) < 0 := by decide

theorem witness_Disp16TextKeepsZero : (0 : Int) ≤ 0 ∧ (-1 : Int) < 0 := by decide

theorem witness_EveryLineIsInTheGrammar :
    (instrText (.movRm8Imm8 0#3 (.disp8 0#3 0xFF#8) 0x80#8)).isSome ∧ sinkAnswer (demo .skip []) = .ok := by decide

end Sys2Proof.Tests
end

section
/-!
SUPPORT. The fetch and the meaning, each said once for every instruction: a fetch that goes on has consumed the encoding of a well-formed
instruction and latched its fields; the meaning of a well-formed instruction consumes as many bytes and latches the same fields.
-/

namespace Sys2Proof

open Sys2Proof.Machine

/-- The latches once the instruction `i` that begins at index `start` is decoded (R18). -/
def instrLatches (start : Nat) : Instr → Latches
  | .movRm8R8 reg rm => rmRegLatches start 0x88#8 0#1 0#1 reg rm
  | .movRm16R16 reg rm => rmRegLatches start 0x89#8 0#1 1#1 reg rm
  | .movR8Rm8 reg rm => rmRegLatches start 0x8A#8 1#1 0#1 reg rm
  | .movR16Rm16 reg rm => rmRegLatches start 0x8B#8 1#1 1#1 reg rm
  | .movRm8Imm8 ext rm v => immRmLatches start 0xC6#8 0#1 ext rm (sext8 v)
  | .movRm16Imm16 ext rm v => immRmLatches start 0xC7#8 1#1 ext rm (sext16 v)
  | .movR8Imm8 reg v => immRegLatches start (0b10110#5 ++ reg) 0#1 reg (zext8 v)
  | .movR16Imm16 reg v => immRegLatches start (0b10111#5 ++ reg) 1#1 reg (zext16 v)
  | .movAlMem a => accLatches start 0xA0#8 .memAcc 0#1 0#1 a
  | .movAxMem a => accLatches start 0xA1#8 .memAcc 0#1 1#1 a
  | .movMemAl a => accLatches start 0xA2#8 .accMem 1#1 0#1 a
  | .movMemAx a => accLatches start 0xA3#8 .accMem 1#1 1#1 a
  | .unsupported b1 => latchedLeading start b1 .unsupported

/-! ### The leading bytes of each form -/

theorem formOf_eq_rmReg : ∀ {b1 : Byte}, formOf b1 = .rmReg →
    b1 = 0x88#8 ∨ b1 = 0x89#8 ∨ b1 = 0x8A#8 ∨ b1 = 0x8B#8 := by decide

theorem formOf_eq_immRm : ∀ {b1 : Byte}, formOf b1 = .immRm → b1 = 0xC6#8 ∨ b1 = 0xC7#8 := by decide

theorem formOf_eq_immReg : ∀ {b1 : Byte}, formOf b1 = .immReg →
    b1 = 0b10110#5 ++ b1.extractLsb' 0 3 ∨ b1 = 0b10111#5 ++ b1.extractLsb' 0 3 := by decide

theorem formOf_eq_memAcc : ∀ {b1 : Byte}, formOf b1 = .memAcc → b1 = 0xA0#8 ∨ b1 = 0xA1#8 := by decide

theorem formOf_eq_accMem : ∀ {b1 : Byte}, formOf b1 = .accMem → b1 = 0xA2#8 ∨ b1 = 0xA3#8 := by decide

/-! ### The latches a read that goes on has written -/

theorem parseRm_latches {c d : Cursor} {reg : BitVec 3} {rm : Rm} (h : parseRm c = .ok (reg, rm) d) :
    d.latches = latchedModrm reg rm c.latches := by
  obtain ⟨hw, hc⟩ := parseRm_consumed h
  have := parseRm_of_holdsAt (bs := []) hw (by simpa using hc.holds)
  cases h.symm.trans this
  rfl

theorem readAddress_latches {c d : Cursor} {a : U16} (h : readAddress c = .ok a d) :
    d.latches = { c.latches with addr := some a } := by
  cases h.symm.trans (readAddress_of_holdsAt (bs := []) (readAddress_consumed h).holds)
  rfl

theorem readImm8_latches {interp : Byte → Int} {c d : Cursor} {v : Byte} (h : readImm8 interp c = .ok v d) :
    d.latches = { c.latches with imm := some (interp v) } := by
  cases h.symm.trans (readImm8_of_holdsAt interp (readImm8_consumed h).holds)
  rfl

theorem readImm16_latches {interp : U16 → Int} {c d : Cursor} {v : U16} (h : readImm16 interp c = .ok v d) :
    d.latches = { c.latches with imm := some (interp v) } := by
  cases h.symm.trans (readImm16_of_holdsAt (bs := []) interp (readImm16_consumed h).holds)
  rfl

/-! ### A fetch that goes on -/

/-- From cursor `c` to cursor `d` the instruction `i` was read: it has an encoding, its bytes were consumed, its fields are latched. -/
structure Fetched (c d : Cursor) (i : Instr) : Prop where
  wellFormed : i.WellFormed
  consumed : Consumed c d (encode i)
  latches : d.latches = instrLatches c.cur i

/-- The cursor after dispatch on the leading byte `b1` (R130), where the reads of its form begin. -/
def afterLeading (b1 : Byte) (c : Cursor) : Cursor :=
  { c with
    cur := c.cur + 1
    latches := dispatchLatches b1 { Latches.empty with start := some c.cur, b1 := some b1 } }

section Forms

variable {b1 : Byte} {c d : Cursor} {i : Instr} (hlead : Consumed c (afterLeading b1 c) [b1])
  (h : readForm b1 (afterLeading b1 c) = .ok i d)

include hlead h

theorem fetched_of_rmReg (hform : formOf b1 = .rmReg) : Fetched c d i := by
  simp only [readForm, hform, readRmReg] at h
  obtain ⟨⟨reg, rm⟩, e, hp, hi⟩ := Decoder.bind_eq_ok.1 h
  have hw := decide_eq_true (parseRm_consumed hp).1
  have hc := hlead.append (parseRm_consumed hp).2
  have hl := parseRm_latches hp
  obtain rfl | rfl | rfl | rfl := formOf_eq_rmReg hform <;> cases hi <;> exact ⟨hw, hc, hl⟩

theorem fetched_of_immRm (hform : formOf b1 = .immRm) : Fetched c d i := by
  simp only [readForm, hform, readImmRm] at h
  obtain ⟨⟨ext, rm⟩, e, hp, hi⟩ := Decoder.bind_eq_ok.1 h
  have hw := decide_eq_true (parseRm_consumed hp).1
  have hc := hlead.append (parseRm_consumed hp).2
  have hl := parseRm_latches hp
  obtain rfl | rfl := formOf_eq_immRm hform
  · obtain ⟨v, f, hv, hi⟩ := Decoder.bind_eq_ok.1 hi
    cases hi
    exact ⟨hw, hc.append (readImm8_consumed hv), by rw [readImm8_latches hv, hl]; rfl⟩
  · obtain ⟨v, f, hv, hi⟩ := Decoder.bind_eq_ok.1 hi
    cases hi
    exact ⟨hw, hc.append (readImm16_consumed hv), by rw [readImm16_latches hv, hl]; rfl⟩

theorem fetched_of_immReg (hform : formOf b1 = .immReg) : Fetched c d i := by
  have hb := formOf_eq_immReg hform
  have hd : (afterLeading b1 c).latches =
      { latchedLeading c.cur b1 .immReg with w := some (widthBit .immReg b1), reg := some (b1.extractLsb' 0 3) } := by
    simp [afterLeading, dispatchLatches, hform, latchedLeading]
  simp only [readForm, hform] at h
  generalize b1.extractLsb' 0 3 = reg at hb hd h
  obtain rfl | rfl := hb
  · rw [(leading_immReg8 reg).2.1] at h hd
    obtain ⟨v, e, hv, hi⟩ := Decoder.bind_eq_ok.1 h
    cases hi
    exact ⟨rfl, hlead.append (readImm8_consumed hv), by rw [readImm8_latches hv, hd]; rfl⟩
  · rw [(leading_immReg16 reg).2.1] at h hd
    obtain ⟨v, e, hv, hi⟩ := Decoder.bind_eq_ok.1 h
    cases hi
    exact ⟨rfl, hlead.append (readImm16_consumed hv), by rw [readImm16_latches hv, hd]; rfl⟩

theorem fetched_of_memAcc (hform : formOf b1 = .memAcc) : Fetched c d i := by
  simp only [readForm, hform, readMemAcc] at h
  obtain ⟨a, e, ha, hi⟩ := Decoder.bind_eq_ok.1 h
  have hc := hlead.append (readAddress_consumed ha)
  have hl := readAddress_latches ha
  obtain rfl | rfl := formOf_eq_memAcc hform <;> cases hi <;> exact ⟨rfl, hc, hl⟩

theorem fetched_of_accMem (hform : formOf b1 = .accMem) : Fetched c d i := by
  simp only [readForm, hform, readAccMem] at h
  obtain ⟨a, e, ha, hi⟩ := Decoder.bind_eq_ok.1 h
  have hc := hlead.append (readAddress_consumed ha)
  have hl := readAddress_latches ha
  obtain rfl | rfl := formOf_eq_accMem hform <;> cases hi <;> exact ⟨rfl, hc, hl⟩

theorem fetched_of_unsupported (hform : formOf b1 = .unsupported) : Fetched c d i := by
  simp only [readForm, hform] at h
  cases h
  exact ⟨decide_eq_true ((formOf_unsupported_iff b1).1 hform), hlead,
    by simp [afterLeading, dispatchLatches, hform, instrLatches, latchedLeading]⟩

end Forms

theorem fetched_of_fetchInstr {c d : Cursor} {i : Instr} (h : fetchInstr c = .ok i d) : Fetched c d i := by
  obtain ⟨b1, hl, hr, h⟩ := fetchInstr_eq_ok h
  have hlead : Consumed c (afterLeading b1 c) [b1] :=
    ⟨(Memory.holdsAt_cons ..).2 ⟨hl, hr, (Memory.holdsAt_nil ..).2 hl⟩, rfl, rfl, rfl⟩
  cases hform : formOf b1 with
  | rmReg => exact fetched_of_rmReg hlead h hform
  | immRm => exact fetched_of_immRm hlead h hform
  | immReg => exact fetched_of_immReg hlead h hform
  | memAcc => exact fetched_of_memAcc hlead h hform
  | accMem => exact fetched_of_accMem hlead h hform
  | unsupported => exact fetched_of_unsupported hlead h hform

/-! ### The cursor after the meaning -/

@[simp] theorem cursorOf_consume (n : Nat) (l : Latches) (s : State) :
    cursorOf (consume n l s) = { cursorOf s with cur := s.cur + n, latches := l } := rfl

@[simp] theorem cursorOf_raise (r : ErrRec) (s : State) : cursorOf (raise r s) = cursorOf s := rfl

@[simp] theorem cursorOf_emit (line : String) (s : State) : cursorOf (emit line s) = cursorOf s := by
  simp [cursorOf]

@[simp] theorem cursorOf_complete (n : Nat) (l : Latches) (i : DecodedInstruction) (s : State) :
    cursorOf (complete n l i s) = { cursorOf s with cur := s.cur + n, latches := l } := by
  simp [complete]

/-- A well-formed instruction's meaning consumes the bytes of its encoding and latches its fields, whatever the sink answers. -/
theorem cursorOf_exec {i : Instr} (hw : i.WellFormed) (s : State) :
    ∃ t, exec i s = .next t ∧
      cursorOf t = { cursorOf s with cur := s.cur + (encode i).length, latches := instrLatches s.cur i } := by
  cases i with
  | movRm8R8 _ rm | movRm16R16 _ rm | movR8Rm8 _ rm | movR16Rm16 _ rm =>
    refine ⟨_, rfl, ?_⟩
    rw [cursorOf_complete, ← rmTail_length (of_decide_eq_true hw), Nat.add_comm 2]
    rfl
  | movRm8Imm8 _ rm _ | movRm16Imm16 _ rm _ =>
    refine ⟨_, rfl, ?_⟩
    rw [cursorOf_complete, ← rmTail_length (of_decide_eq_true hw), Nat.add_comm 2, Nat.add_right_comm]
    simp [encode, instrLatches, immLength, bytesOf]
  | movR8Imm8 _ _ | movR16Imm16 _ _ | movAlMem _ | movAxMem _ | movMemAl _ | movMemAx _ =>
    exact ⟨_, rfl, cursorOf_complete ..⟩
  | unsupported _ => exact ⟨_, rfl, rfl⟩

/-- Settles O22: the fetch and the meaning consume the same encoding and latch the same fields. -/
theorem meaningAgreesWithFetch : Obligations.MeaningAgreesWithFetch := by
  unfold Obligations.MeaningAgreesWithFetch
  intro s i c h
  obtain ⟨hw, hc, hl⟩ := fetched_of_fetchInstr h
  obtain ⟨t, ht, hcur⟩ := cursorOf_exec hw s
  injection hcur with hstream hlen hcur hlatches
  exact ⟨t, ht, hcur.trans hc.cur.symm, hlatches.trans hl.symm, hstream.trans hc.stream.symm, hlen.trans hc.len.symm⟩

end Sys2Proof
end

section
/-!
SUPPORT. How the reads after a leading byte can end, said once for every form: they keep the stream, `START` and `B1`, never move the cursor
back or past `LEN`, and stop only as `TruncatedStream` of the group at the cursor. (`CursorOverrun` cannot occur, each read group standing
after its `need`; `unbacked` is the model's fault.)
-/

namespace Sys2Proof.Machine

/-- From cursor `c` to cursor `d` some reads after the leading byte were done. -/
structure ReadOn (c d : Cursor) : Prop where
  stream : d.stream = c.stream
  len : d.len = c.len
  cur_le : c.cur ≤ d.cur
  within : c.cur ≤ c.len → d.cur ≤ c.len
  start : d.latches.start = c.latches.start
  b1 : d.latches.b1 = c.latches.b1

theorem ReadOn.refl (c : Cursor) : ReadOn c c := ⟨rfl, rfl, le_rfl, id, rfl, rfl⟩

theorem ReadOn.trans {c d e : Cursor} (h : ReadOn c d) (h' : ReadOn d e) : ReadOn c e where
  stream := h'.stream.trans h.stream
  len := h'.len.trans h.len
  cur_le := h.cur_le.trans h'.cur_le
  within hc := h.len ▸ h'.within (h.len.symm ▸ h.within hc)
  start := h'.start.trans h.start
  b1 := h'.b1.trans h.b1

/-- The reads that began at `c` stopped at `d`: a group of `n` bytes is not wholly there, or the stream is not backed. -/
def StopsAt (c d : Cursor) (why : Stop) : Prop :=
  (∃ a, why = .unbacked a) ∨ ReadOn c d ∧ ∃ n, why = .truncated n (d.len - d.cur) ∧ d.len - d.cur < n

theorem ReadOn.stopsAt {c d e : Cursor} {why : Stop} (h : ReadOn c d) (h' : StopsAt d e why) : StopsAt c e why :=
  h'.imp_right fun ⟨h', hn⟩ => ⟨h.trans h', hn⟩

/-- Whatever a decoder answers, it has only read on. -/
structure ReadsOn {α : Type} (x : Decoder α) : Prop where
  ok : ∀ {c d a}, x c = .ok a d → ReadOn c d
  error : ∀ {c d why}, x c = .error why d → StopsAt c d why

theorem readsOn_pure {α : Type} (a : α) : ReadsOn (pure a : Decoder α) where
  ok h := by cases h; exact .refl _
  error h := by cases h

theorem ReadsOn.bind {α β : Type} {x : Decoder α} {f : α → Decoder β} (hx : ReadsOn x) (hf : ∀ a, ReadsOn (f a)) :
    ReadsOn (x >>= f) where
  ok h := by
    obtain ⟨a, c', h1, h2⟩ := Decoder.bind_eq_ok.1 h
    exact (hx.ok h1).trans ((hf a).ok h2)
  error h := by
    obtain h1 | ⟨a, c', h1, h2⟩ := Decoder.bind_eq_error.1 h
    · exact hx.error h1
    · exact (hx.ok h1).stopsAt ((hf a).error h2)

/-! ### Read groups -/

/-- With `n` bytes left, `x` reads exactly those, unless the stream is not backed. -/
def ReadsGroup {α : Type} (n : Nat) (x : Decoder α) : Prop :=
  ∀ c, n ≤ c.len - c.cur →
    (∃ a, x c = .ok a { c with cur := c.cur + n }) ∨ ∃ a d, x c = .error (.unbacked a) d

theorem readsGroup_nextByte : ReadsGroup 1 nextByte := by
  intro c hn
  cases hb : Memory.read c.stream c.cur with
  | some b => exact .inl ⟨b, nextByte_ok (by omega) hb⟩
  | none => exact .inr ⟨c.cur, c, nextByte_eq_error.2 ⟨rfl, .inr ⟨by omega, hb, rfl⟩⟩⟩

theorem readsGroup_read16 : ReadsGroup 2 read16 := by
  intro c hn
  unfold read16
  obtain ⟨lo, h1⟩ | ⟨a, d, h1⟩ := readsGroup_nextByte c (by omega)
  · rw [Decoder.bind_ok h1]
    obtain ⟨hi, h2⟩ | ⟨a, d, h2⟩ := readsGroup_nextByte { c with cur := c.cur + 1 } (by simp only; omega)
    · exact .inl ⟨littleEndian lo hi, Decoder.bind_ok h2⟩
    · exact .inr ⟨a, d, Decoder.bind_error h2⟩
  · exact .inr ⟨a, d, Decoder.bind_error h1⟩

/-- A read group: `need n`, its bytes, its latches, none of which is `START` or `B1`. -/
theorem ReadsGroup.readsOn {α β : Type} {n : Nat} {x : Decoder α} (hx : ReadsGroup n x) {g : α → Latches → Latches}
    (hg : ∀ v l, (g v l).start = l.start ∧ (g v l).b1 = l.b1) (k : α → β) :
    ReadsOn (do need n; let v ← x; latch (g v); return k v) where
  ok {c d a} h := by
    obtain ⟨u, c1, h1, h2⟩ := Decoder.bind_eq_ok.1 h
    obtain ⟨hn, rfl⟩ := need_eq_ok.1 h1
    obtain ⟨v, c2, h3, h4⟩ := Decoder.bind_eq_ok.1 h2
    cases h4
    obtain ⟨w, hw⟩ | ⟨b, e, hw⟩ := hx _ hn
    · cases h3.symm.trans hw
      exact ⟨rfl, rfl, Nat.le_add_right .., fun hc => by simp only; omega, (hg ..).1, (hg ..).2⟩
    · cases h3.symm.trans hw
  error {c d why} h := by
    obtain h1 | ⟨u, c1, h1, h2⟩ := Decoder.bind_eq_error.1 h
    · obtain ⟨hn, rfl, rfl⟩ := need_eq_error.1 h1
      exact .inr ⟨.refl _, n, rfl, hn⟩
    · obtain ⟨hn, rfl⟩ := need_eq_ok.1 h1
      obtain h3 | ⟨v, c2, -, h4⟩ := Decoder.bind_eq_error.1 h2
      · obtain ⟨w, hw⟩ | ⟨b, e, hw⟩ := hx _ hn
        · cases h3.symm.trans hw
        · cases h3.symm.trans hw
          exact .inl ⟨b, rfl⟩
      · cases h4

theorem readsOn_readModrm : ReadsOn readModrm :=
  readsGroup_nextByte.readsOn (g := fun b2 l =>
    { l with
      b2 := some b2, mod := some (b2.extractLsb' 6 2), reg := some (b2.extractLsb' 3 3),
      rm := some (b2.extractLsb' 0 3) })
    (fun _ _ => ⟨rfl, rfl⟩) fun b2 => (b2.extractLsb' 6 2, b2.extractLsb' 3 3, b2.extractLsb' 0 3)

theorem readsOn_readAddress : ReadsOn readAddress :=
  readsGroup_read16.readsOn (g := fun a l => { l with addr := some a }) (fun _ _ => ⟨rfl, rfl⟩) id

theorem readsOn_readDisp8 : ReadsOn readDisp8 :=
  readsGroup_nextByte.readsOn (g := fun d l => { l with disp := some (sext8 d) }) (fun _ _ => ⟨rfl, rfl⟩) id

theorem readsOn_readDisp16 : ReadsOn readDisp16 :=
  readsGroup_read16.readsOn (g := fun d l => { l with disp := some (sext16 d) }) (fun _ _ => ⟨rfl, rfl⟩) id

theorem readsOn_readImm8 (interp : Byte → Int) : ReadsOn (readImm8 interp) :=
  readsGroup_nextByte.readsOn (g := fun v l => { l with imm := some (interp v) }) (fun _ _ => ⟨rfl, rfl⟩) id

theorem readsOn_readImm16 (interp : U16 → Int) : ReadsOn (readImm16 interp) :=
  readsGroup_read16.readsOn (g := fun v l => { l with imm := some (interp v) }) (fun _ _ => ⟨rfl, rfl⟩) id

/-! ### The forms -/

theorem readsOn_readRmTail (mod : BitVec 2) (rm : BitVec 3) : ReadsOn (readRmTail mod rm) := by
  unfold readRmTail
  split
  · exact readsOn_pure _
  split
  · split
    · exact readsOn_readAddress.bind fun _ => readsOn_pure _
    · exact readsOn_pure _
  split
  · exact readsOn_readDisp8.bind fun _ => readsOn_pure _
  · exact readsOn_readDisp16.bind fun _ => readsOn_pure _

theorem readsOn_parseRm : ReadsOn parseRm :=
  readsOn_readModrm.bind fun (mod, _, rm) => (readsOn_readRmTail mod rm).bind fun _ => readsOn_pure _

theorem readsOn_readImmRm (w : BitVec 1) : ReadsOn (readImmRm w) :=
  readsOn_parseRm.bind fun (_, _) => by
    cases widthOf w with
    | byte => exact (readsOn_readImm8 _).bind fun _ => readsOn_pure _
    | word => exact (readsOn_readImm16 _).bind fun _ => readsOn_pure _

theorem readsOn_readImmReg (w : BitVec 1) (reg : BitVec 3) : ReadsOn (readImmReg w reg) := by
  unfold readImmReg
  cases widthOf w with
  | byte => exact (readsOn_readImm8 _).bind fun _ => readsOn_pure _
  | word => exact (readsOn_readImm16 _).bind fun _ => readsOn_pure _

/-- Whatever the leading byte, the reads after it only read on. -/
theorem readsOn_readForm (b1 : Byte) : ReadsOn (readForm b1) := by
  unfold readForm
  cases formOf b1 with
  | rmReg => exact readsOn_parseRm.bind fun (_, _) => readsOn_pure _
  | immRm => exact readsOn_readImmRm _
  | immReg => exact readsOn_readImmReg _ _
  | memAcc => exact readsOn_readAddress.bind fun _ => readsOn_pure _
  | accMem => exact readsOn_readAddress.bind fun _ => readsOn_pure _
  | unsupported => exact readsOn_pure _

/-! ### A fetch that stops -/

@[simp] theorem dispatchLatches_start (b1 : Byte) (l : Latches) : (dispatchLatches b1 l).start = l.start := by
  unfold dispatchLatches; cases formOf b1 <;> rfl

@[simp] theorem dispatchLatches_b1 (b1 : Byte) (l : Latches) : (dispatchLatches b1 l).b1 = l.b1 := by
  unfold dispatchLatches; cases formOf b1 <;> rfl

theorem Memory.holdsAt_of_read {m : Memory} {len k : Nat} {b : Byte} (hk : k < len) (hb : Memory.read m k = some b) :
    Memory.holdsAt m len k [b] :=
  (Memory.holdsAt_cons ..).2 ⟨hk, hb, (Memory.holdsAt_nil ..).2 hk⟩

theorem fetchInstr_unbacked {c : Cursor} (hl : c.cur < c.len) (hb : Memory.read c.stream c.cur = none) :
    ∃ d, fetchInstr c = .error (.unbacked c.cur) d := by
  unfold fetchInstr
  rw [Decoder.bind_ok (cursorIndex_apply c), Decoder.bind_ok (latch_apply _ c)]
  exact ⟨_, Decoder.bind_error (nextByte_eq_error.2 ⟨rfl, .inr ⟨hl, hb, rfl⟩⟩)⟩

/-- Below `LEN` a fetch stops after its leading byte, at a group that is not wholly there, or in an unbacked stream. -/
theorem fetchInstr_stop {c d : Cursor} {why : Stop} (hl : c.cur < c.len) (h : fetchInstr c = .error why d) :
    (∃ a, why = .unbacked a) ∨
      ∃ b1, Memory.read c.stream c.cur = some b1 ∧ StopsAt (afterLeading b1 c) d why := by
  cases hb : Memory.read c.stream c.cur with
  | some b1 =>
    have hlead : fetchInstr c = readForm b1 (afterLeading b1 c) :=
      fetchInstr_leading (Memory.holdsAt_of_read hl hb)
    exact .inr ⟨b1, rfl, (readsOn_readForm b1).error (hlead ▸ h)⟩
  | none =>
    obtain ⟨e, he⟩ := fetchInstr_unbacked hl hb
    cases h.symm.trans he
    exact .inl ⟨c.cur, rfl⟩

end Sys2Proof.Machine
end

section
/-!
SUPPORT. The step, each branch of R181 said once, and the inversion: everything a step that answers a next state can have done.
-/

namespace Sys2Proof.Machine

/-! ### The branches of the loop -/

theorem step_of_not_ready {s : State} (h : s.run ≠ .ready) : step s = .refused (.stepNotEnabled s.run) := by
  cases hr : s.run with
  | ready => exact absurd hr h
  | idle | done | halted => simp [step, atBoundary, hr]

section Ready

variable {s : State} (hr : s.run = .ready)
include hr

theorem step_of_end (hl : s.len ≤ s.cur) : step s = .next (endRun s) := by
  simp [step, atBoundary, hr, hasMore, Nat.not_lt.mpr hl]

theorem step_of_fetch_ok (hl : s.cur < s.len) {i : Instr} {c : Cursor} (hf : fetchInstr (cursorOf s) = .ok i c) :
    step s = exec i s := by
  simp [step, atBoundary, hr, hasMore, hl, hf]

theorem step_of_fetch_error (hl : s.cur < s.len) {why : Stop} {c : Cursor}
    (hf : fetchInstr (cursorOf s) = .error why c) : step s = stopped why c s := by
  simp [step, atBoundary, hr, hasMore, hl, hf]

end Ready

/-! ### Everything a step can do -/

/-- A meaning completes a MOV or is that of an unsupported byte. -/
theorem exec_cases (i : Instr) (s : State) :
    (∃ n l r, exec i s = .next (complete n l r s)) ∨ ∃ b1, i = .unsupported b1 := by
  cases i with
  | unsupported b1 => exact .inr ⟨b1, rfl⟩
  | movRm8R8 | movRm16R16 | movR8Rm8 | movR16Rm16 | movRm8Imm8 | movRm16Imm16 | movR8Imm8 | movR16Imm16 | movAlMem
    | movAxMem | movMemAl | movMemAx => exact .inl ⟨_, _, _, rfl⟩

theorem encode_length_pos (i : Instr) : 0 < (encode i).length := by
  cases i <;> exact Nat.succ_pos _

/-- The state after a step from `READY`: the run ends, a MOV is completed, an unsupported byte is recorded, or the stream ends inside an
instruction. -/
inductive StepTo (s : State) : State → Prop where
  | ended (h : s.len ≤ s.cur) : StepTo s (endRun s)
  | mov (n : Nat) (hpos : 0 < n) (hn : s.cur + n ≤ s.len) (l : Latches) (r : DecodedInstruction) :
      StepTo s (complete n l r s)
  | unsupported {b1 : Byte} (hb : s.holdsNext [b1]) :
      StepTo s (raise (unsupportedRecord s.cur b1 (s.cur + 1))
        (consume 1 (latchedLeading s.cur b1 .unsupported) s))
  | truncated {b1 : Byte} {c : Cursor} {n : Nat} (hb : s.holdsNext [b1])
      (hc : ReadOn (afterLeading b1 (cursorOf s)) c) (hn : c.len - c.cur < n) :
      StepTo s (raise (truncatedRecord c n (c.len - c.cur)) (withCursor c s))

theorem StepTo.of_fetched {s t : State} {i : Instr} {c : Cursor} (hf : Fetched (cursorOf s) c i)
    (h : exec i s = .next t) : StepTo s t := by
  have hfit : s.cur + (encode i).length ≤ s.len := hf.consumed.holds.1
  have hpos := encode_length_pos i
  obtain ⟨n, l, r, he⟩ | ⟨b1, rfl⟩ := exec_cases i s
  · obtain ⟨t', ht', hcur⟩ := cursorOf_exec hf.wellFormed s
    cases h.symm.trans he
    cases he.symm.trans ht'
    rw [cursorOf_complete] at hcur
    injection hcur with _ _ hlength
    exact .mov n (by omega) (by omega) l r
  · cases h
    exact .unsupported hf.consumed.holds

/-- The inversion of `step`. -/
theorem step_eq_next {s t : State} (h : step s = .next t) : s.run = .ready ∧ StepTo s t := by
  by_cases hr : s.run = .ready
  case neg => rw [step_of_not_ready hr] at h; cases h
  refine ⟨hr, ?_⟩
  by_cases hl : s.cur < s.len
  case neg =>
    cases h.symm.trans (step_of_end hr (Nat.not_lt.mp hl))
    exact .ended (Nat.not_lt.mp hl)
  cases hf : fetchInstr (cursorOf s) with
  | ok i c => exact .of_fetched (fetched_of_fetchInstr hf) ((step_of_fetch_ok hr hl hf).symm.trans h)
  | error why c =>
    rw [step_of_fetch_error hr hl hf] at h
    obtain ⟨a, rfl⟩ | ⟨b1, hb, ⟨a, rfl⟩ | ⟨hc, n, rfl, hn⟩⟩ := fetchInstr_stop hl hf
    · cases h
    · cases h
    · cases h
      exact .truncated (Memory.holdsAt_of_read hl hb) hc hn

/-! ### Progress -/

theorem emit_progress (line : String) (s : State) : Progress s (emit line s) := by
  cases h : sinkAnswer s <;> constructor <;> simp [emit_ok, emit_fail, h]

theorem StepTo.progress {s t : State} (h : StepTo s t) : Progress s t := by
  cases h with
  | ended => exact ⟨rfl, rfl, rfl, le_rfl, List.prefix_rfl, List.prefix_rfl⟩
  | mov n _ _ l r =>
    have hp := emit_progress (render r) (consume n l s)
    exact ⟨hp.stream_same, hp.len_same, hp.policy_same, (Nat.le_add_right ..).trans hp.cur_monotonic, hp.out_grows,
      hp.log_grows⟩
  | unsupported => exact ⟨rfl, rfl, rfl, Nat.le_succ _, List.prefix_rfl, List.prefix_append ..⟩
  | truncated _ hc =>
    exact ⟨hc.stream, hc.len, rfl, (Nat.le_succ _).trans hc.cur_le, List.prefix_rfl, List.prefix_append ..⟩

/-- Settles O26: each thing a step can do is progress. -/
theorem stepOnlyMovesForward : Obligations.StepOnlyMovesForward := by
  unfold Obligations.StepOnlyMovesForward
  exact fun s t h => (step_eq_next h).2.progress

end Sys2Proof.Machine
end

section
/-!
SUPPORT. The invariants of the state: each operation that a transaction is made of keeps them.
-/

namespace Sys2Proof.Machine

/-- Settles O2: nothing is loaded or recorded at power-on. -/
theorem powerOnMeetsInvariant : Obligations.PowerOnMeetsInvariant := by
  unfold Obligations.PowerOnMeetsInvariant
  constructor <;> simp [State.reset, Memory.backs, unsupportedIn]

theorem unsupportedIn_append (log : List ErrRec) (r : ErrRec) :
    unsupportedIn (log ++ [r]) = if r.kind = .unsupportedInstruction then unsupportedIn log + 1 else unsupportedIn log := by
  unfold unsupportedIn
  split <;> simp [*]

namespace State.Inv

variable {s : State}

/-- The invariants do not speak of `OUT` and the sink. -/
theorem of_output (h : s.Inv) (out : List String) (answers : List SinkAnswer) (seq : Nat) :
    State.Inv { s with out := out, sinkAnswers := answers, sinkSeq := seq } :=
  ⟨h.stream_backed, h.cur_le_len, h.halted_iff_err, h.done_at_end, h.err_is_last, h.uCount_counts, h.uCount_le_cur,
    h.live_log_skipped⟩

/-- In `READY` the cursor may move forward within the stream. -/
theorem of_withCursor (h : s.Inv) (hr : s.run = .ready) {c : Cursor} (hs : c.stream = s.stream) (hl : c.len = s.len)
    (hge : s.cur ≤ c.cur) (hle : c.cur ≤ s.len) : (withCursor c s).Inv where
  stream_backed := by simpa [hs, hl] using h.stream_backed
  cur_le_len := by simpa [hl] using hle
  halted_iff_err := h.halted_iff_err
  done_at_end hd := by simp [hr] at hd
  err_is_last := h.err_is_last
  uCount_counts := h.uCount_counts
  uCount_le_cur := h.uCount_le_cur.trans hge
  live_log_skipped := h.live_log_skipped

theorem of_consume (h : s.Inv) (hr : s.run = .ready) {n : Nat} (hn : s.cur + n ≤ s.len) (l : Latches) :
    (consume n l s).Inv :=
  h.of_withCursor hr (c := { cursorOf s with cur := s.cur + n, latches := l }) rfl rfl (Nat.le_add_right ..) hn

/-- Taking an error before the run has halted, the byte of an unsupported instruction being consumed. -/
theorem of_raise (h : s.Inv) (hr : s.run ≠ .halted) {r : ErrRec}
    (hcount : r.kind = .unsupportedInstruction → s.uCount < s.cur) : (raise r s).Inv := by
  have herr : s.err = none := not_not.1 (mt h.halted_iff_err.2 hr)
  have huCount : (raise r s).uCount = unsupportedIn (raise r s).log := by
    simp [unsupportedIn_append, h.uCount_counts]
  have hle : (raise r s).uCount ≤ (raise r s).cur := by
    rw [raise_uCount]
    split
    next hk => exact hcount hk
    next => exact h.uCount_le_cur
  cases hskip : isSkipped r.kind s with
  | true =>
    have hkind := ((isSkipped_eq ..).1 hskip).1
    refine ⟨h.stream_backed, h.cur_le_len, ?_, ?_, ?_, huCount, hle, ?_⟩
    · simpa [hskip] using h.halted_iff_err
    · simpa [hskip] using h.done_at_end
    · simp [hskip, herr]
    · intro _ q hq
      obtain hq | hq := List.mem_append.1 hq
      · exact h.live_log_skipped hr q hq
      · exact List.mem_singleton.1 hq ▸ hkind
  | false =>
    refine ⟨h.stream_backed, h.cur_le_len, ?_, ?_, ?_, huCount, hle, ?_⟩ <;> simp [hskip]

/-- Emitting a line, accepted or refused. -/
theorem of_emit (h : s.Inv) (hr : s.run ≠ .halted) (line : String) : (emit line s).Inv := by
  cases ha : sinkAnswer s with
  | ok =>
    rw [emit_ok ha]
    exact h.of_output ..
  | fail =>
    have : emit line s = raise (sinkFailureRecord s) (answered s) := by simp [emit, ha]
    rw [this]
    have hs : (answered s).Inv := h.of_output ..
    exact hs.of_raise hr (by simp [sinkFailureRecord])

theorem of_stepTo (h : s.Inv) (hr : s.run = .ready) {t : State} (ht : StepTo s t) : t.Inv := by
  have hlive : s.run ≠ .halted := by simp [hr]
  cases ht with
  | ended hend =>
    have herr : s.err = none := not_not.1 (mt h.halted_iff_err.2 hlive)
    exact ⟨h.stream_backed, h.cur_le_len, by simp [herr], fun _ => ⟨h.cur_le_len.antisymm hend, herr⟩,
      h.err_is_last, h.uCount_counts, h.uCount_le_cur, fun _ => h.live_log_skipped hlive⟩
  | mov n _ hn l r => exact (h.of_consume hr hn l).of_emit hlive _
  | unsupported hb => exact (h.of_consume hr hb.1 _).of_raise hlive fun _ => Nat.lt_succ_of_le h.uCount_le_cur
  | truncated hb hc =>
    exact (h.of_withCursor hr hc.stream hc.len ((Nat.le_succ _).trans hc.cur_le) (hc.within hb.1)).of_raise hlive
      fun hk => by cases hk

end State.Inv

/-- Settles O27: each thing a step can do keeps the invariants. -/
theorem stepKeepsInvariant : Obligations.StepKeepsInvariant := by
  unfold Obligations.StepKeepsInvariant
  intro s t hs h
  obtain ⟨hr, ht⟩ := step_eq_next h
  exact hs.of_stepTo hr ht

end Sys2Proof.Machine
end

section
/-!
SUPPORT. The host's transactions: when each is enabled and what it answers, the header's two lines, and what each keeps.
-/

namespace Sys2Proof.Machine

/-! ### When a transaction is enabled, and its answer -/

@[simp] theorem running_iff (s : State) : running s = true ↔ s.run = .ready := decide_eq_true_iff

theorem setPolicy_of_not_ready {s : State} (h : s.run ≠ .ready) (p : Policy) :
    setPolicy p s = .next { s with policy := some p } := by
  simp [setPolicy, h]

theorem setPolicy_of_ready {s : State} (h : s.run = .ready) (p : Policy) : setPolicy p s = .refused .cfgDuringRun := by
  simp [setPolicy, h]

theorem load_of_policy_set {s : State} (h : s.run ≠ .ready) (hp : s.policy ≠ none) (bs : List Byte) :
    load bs s = .next (emitHeader (loaded bs s)) := by
  simp [load, h, hp]

theorem load_of_policy_none {s : State} (h : s.run ≠ .ready) (hp : s.policy = none) (bs : List Byte) :
    load bs s = .refused .policyNotSet := by
  simp [load, h, hp]

theorem load_of_ready {s : State} (h : s.run = .ready) (bs : List Byte) : load bs s = .refused .loadDuringRun := by
  simp [load, h]

/-- Every element as a reported load failure leaves it, before the record is made (R29). -/
def unloaded (s : State) : State :=
  { s with
    stream := [], len := 0, cur := 0, run := .idle, err := none, log := [], uCount := 0, out := [],
    latches := Latches.empty }

theorem loadFailed_of_not_ready {s : State} (h : s.run ≠ .ready) :
    loadFailed s = .next (raise loadFailureRecord (unloaded s)) := by
  simp [loadFailed, h, unloaded]

theorem loadFailed_of_ready {s : State} (h : s.run = .ready) : loadFailed s = .refused .loadDuringRun := by
  simp [loadFailed, h]

theorem setPolicy_eq_next {s t : State} {p : Policy} (h : setPolicy p s = .next t) :
    t = { s with policy := some p } := by
  by_cases hr : s.run = .ready
  · rw [setPolicy_of_ready hr] at h; cases h
  · rw [setPolicy_of_not_ready hr] at h; cases h; rfl

theorem load_eq_next {s t : State} {bs : List Byte} (h : load bs s = .next t) :
    s.policy ≠ none ∧ t = emitHeader (loaded bs s) := by
  by_cases hr : s.run = .ready
  · rw [load_of_ready hr] at h; cases h
  by_cases hp : s.policy = none
  · rw [load_of_policy_none hr hp] at h; cases h
  · rw [load_of_policy_set hr hp] at h; cases h; exact ⟨hp, rfl⟩

theorem loadFailed_eq_next {s t : State} (h : loadFailed s = .next t) : t = raise loadFailureRecord (unloaded s) := by
  by_cases hr : s.run = .ready
  · rw [loadFailed_of_ready hr] at h; cases h
  · rw [loadFailed_of_not_ready hr] at h; cases h; rfl

/-! ### The header -/

@[simp] theorem sinkAnswer_loaded (bs : List Byte) (s : State) : sinkAnswer (loaded bs s) = sinkAnswer s := rfl

theorem sinkAnswer_of_cons {s : State} {a : SinkAnswer} {answers : List SinkAnswer} (h : s.sinkAnswers = a :: answers) :
    sinkAnswer s = a := by
  simp [sinkAnswer, h]

theorem emitHeader_of_fail {s : State} (h : sinkAnswer s = .fail) : emitHeader s = emit headerDirective s := by
  simp [emitHeader, emit_fail h]

theorem emitHeader_of_ok {s : State} (hr : s.run = .ready) (h : sinkAnswer s = .ok) :
    emitHeader s = emit headerBlank (emit headerDirective s) := by
  simp [emitHeader, emit_ok h, hr]

theorem emitHeader_cases (s : State) :
    emitHeader s = emit headerDirective s ∨
      (emit headerDirective s).run = .ready ∧ emitHeader s = emit headerBlank (emit headerDirective s) := by
  by_cases hr : (emit headerDirective s).run = .ready <;> simp [emitHeader, hr]

@[simp] theorem emitHeader_stream (s : State) : (emitHeader s).stream = s.stream := by
  obtain h | ⟨-, h⟩ := emitHeader_cases s <;> simp [h]
@[simp] theorem emitHeader_len (s : State) : (emitHeader s).len = s.len := by
  obtain h | ⟨-, h⟩ := emitHeader_cases s <;> simp [h]
@[simp] theorem emitHeader_cur (s : State) : (emitHeader s).cur = s.cur := by
  obtain h | ⟨-, h⟩ := emitHeader_cases s <;> simp [h]
@[simp] theorem emitHeader_policy (s : State) : (emitHeader s).policy = s.policy := by
  obtain h | ⟨-, h⟩ := emitHeader_cases s <;> simp [h]

/-- A run that is live after its header has both header lines in `OUT`. -/
theorem emitHeader_out_of_live {s : State} (hr : s.run = .ready) (h : (emitHeader s).run ≠ .halted) :
    (emitHeader s).out = s.out ++ [headerDirective, headerBlank] := by
  cases h1 : sinkAnswer s with
  | fail => simp [emitHeader_of_fail h1, emit_fail h1] at h
  | ok =>
    rw [emitHeader_of_ok hr h1] at h ⊢
    cases h2 : sinkAnswer (emit headerDirective s) with
    | fail => simp [emit_fail h2] at h
    | ok =>
      rw [emit_ok h2, emit_ok h1]
      simp

/-! ### The invariants -/

namespace State.Inv

theorem of_loaded (bs : List Byte) (s : State) : (loaded bs s).Inv := by
  constructor <;> simp [Memory.ofBytes_backs, unsupportedIn]

theorem of_unloaded (s : State) : (unloaded s).Inv := by
  constructor <;> simp [unloaded, Memory.backs, unsupportedIn]

theorem of_emitHeader {s : State} (h : s.Inv) (hr : s.run = .ready) : (emitHeader s).Inv := by
  have h1 : (emit headerDirective s).Inv := h.of_emit (by simp [hr]) _
  obtain heq | ⟨hrun, heq⟩ := emitHeader_cases s <;> rw [heq]
  · exact h1
  · exact h1.of_emit (by simp [hrun]) _

end State.Inv

/-- Settles O28: what each transaction answers meets the invariants. -/
theorem transactionsKeepInvariant : Obligations.TransactionsKeepInvariant := by
  unfold Obligations.TransactionsKeepInvariant
  intro m s t hs h
  cases m with
  | cfg p =>
    cases setPolicy_eq_next h
    obtain ⟨h1, h2, h3, h4, h5, h6, h7, h8⟩ := hs
    exact ⟨h1, h2, h3, h4, h5, h6, h7, h8⟩
  | load bs =>
    obtain ⟨-, rfl⟩ := load_eq_next h
    exact (State.Inv.of_loaded bs s).of_emitHeader rfl
  | loadFailure =>
    cases loadFailed_eq_next h
    exact (State.Inv.of_unloaded s).of_raise (by simp [unloaded]) (by simp [loadFailureRecord])
  | step => exact stepKeepsInvariant s t hs h

end Sys2Proof.Machine
end

section
/-!
SUPPORT. The statements of `10_state.md` about power-on, the host's transactions and the record of a truncated stream.
-/

namespace Sys2Proof.Machine

/-- Settles O4: the header leaves the stream as it was loaded. -/
theorem loadedStreamReadsAsItsBytes : Obligations.LoadedStreamReadsAsItsBytes := by
  unfold Obligations.LoadedStreamReadsAsItsBytes
  intro bs s t h
  obtain ⟨-, rfl⟩ := load_eq_next h
  simp [Memory.ofBytes_wf, Memory.read_ofBytes]

/-- Settles O8: only `cfg` touches `POLICY`. -/
theorem policyReadsAsLastSet : Obligations.PolicyReadsAsLastSet := by
  unfold Obligations.PolicyReadsAsLastSet
  intro m s t h
  cases m with
  | cfg p =>
    cases setPolicy_eq_next h
    exact ⟨fun q hq => by cases hq; exact ⟨rfl, rfl⟩, fun hne => absurd rfl (hne p)⟩
  | load bs =>
    obtain ⟨-, rfl⟩ := load_eq_next h
    exact ⟨nofun, fun _ => by simp⟩
  | loadFailure =>
    cases loadFailed_eq_next h
    exact ⟨nofun, fun _ => rfl⟩
  | step => exact ⟨nofun, fun _ => (stepOnlyMovesForward s t h).policy_same⟩

/-- Settles O29: a live load has emitted the header, and no later move takes it away. -/
theorem headerStandsFirst : Obligations.HeaderStandsFirst := by
  unfold Obligations.HeaderStandsFirst
  intro m s t hs h hlive
  cases m with
  | cfg p =>
    cases setPolicy_eq_next h
    exact ⟨(hs hlive).header, by simp⟩
  | load bs =>
    obtain ⟨hp, rfl⟩ := load_eq_next h
    have hout := emitHeader_out_of_live (s := loaded bs s) rfl (fun hh => by simp [hh] at hlive)
    exact ⟨by simp [hout], by simpa using hp⟩
  | loadFailure =>
    cases loadFailed_eq_next h
    simp [loadFailureRecord] at hlive
  | step =>
    obtain ⟨hr, ht⟩ := step_eq_next h
    have hstarted := hs (.inl hr)
    exact ⟨hstarted.header.trans ht.progress.out_grows, ht.progress.policy_same ▸ hstarted.policy_set⟩

/-- Settles O44: the fetch's stop fixes the record, since the reads after the leading byte keep `START` and `B1`. -/
theorem truncationRecordLocatesInstruction : Obligations.TruncationRecordLocatesInstruction := by
  unfold Obligations.TruncationRecordLocatesInstruction
  intro s b1 need avail c hr hl hb hf
  obtain ⟨a, ha⟩ | ⟨b, hb', ⟨a, ha⟩ | ⟨hc, n, hn, hlt⟩⟩ := fetchInstr_stop hl hf
  · cases ha
  · cases ha
  cases hn
  cases hb.symm.trans hb'
  have hrecord : truncatedRecord c need (c.len - c.cur) =
      ⟨.truncatedStream, some s.cur, some b1, some c.cur, some need, some (c.len - c.cur)⟩ := by
    simp [truncatedRecord, hc.start, hc.b1, afterLeading]
  refine ⟨_, step_of_fetch_error hr hl hf, ?_⟩
  rw [hrecord]
  have hlen : c.len = s.len := hc.len
  simp [hlen, hlen ▸ hlt]

/-- Settles O1. -/
theorem powerOnState : Obligations.PowerOnState := by
  unfold Obligations.PowerOnState
  exact ⟨rfl, rfl, rfl, rfl, rfl, rfl, rfl⟩

/-- Settles O3: both header lines are accepted. -/
theorem loadStartsFreshRun : Obligations.LoadStartsFreshRun := by
  unfold Obligations.LoadStartsFreshRun
  intro bs s answers hr hp ha
  have h1 : sinkAnswer (loaded bs s) = .ok := sinkAnswer_of_cons ha
  have h2 : sinkAnswer (emit headerDirective (loaded bs s)) = .ok :=
    sinkAnswer_of_cons (answers := answers) (by simp [ha])
  rw [load_of_policy_set hr hp, emitHeader_of_ok rfl h1, emit_ok h2, emit_ok h1]
  simp [loaded, ha, headerDirective, headerBlank]

/-- Settles O5: the first line refused, and the second. -/
theorem refusedHeaderHaltsRun : Obligations.RefusedHeaderHaltsRun := by
  unfold Obligations.RefusedHeaderHaltsRun
  intro bs s answers hr hp
  refine ⟨fun ha => ⟨_, load_of_policy_set hr hp bs, ?_⟩, fun ha => ⟨_, load_of_policy_set hr hp bs, ?_⟩⟩
  · have h1 : sinkAnswer (loaded bs s) = .fail := sinkAnswer_of_cons ha
    rw [emitHeader_of_fail h1, emit_fail h1]
    simp [sinkFailureRecord, Latches.empty]
  · have h1 : sinkAnswer (loaded bs s) = .ok := sinkAnswer_of_cons ha
    have h2 : sinkAnswer (emit headerDirective (loaded bs s)) = .fail :=
      sinkAnswer_of_cons (answers := answers) (by simp [ha])
    rw [emitHeader_of_ok rfl h1, emit_fail h2]
    simp [sinkFailureRecord, Latches.empty, emit_ok h1, headerDirective]

/-- Settles O6. -/
theorem loadFailureHaltsRun : Obligations.LoadFailureHaltsRun := by
  unfold Obligations.LoadFailureHaltsRun
  intro s hr
  refine ⟨_, loadFailed_of_not_ready hr, ?_⟩
  simp [loadFailureRecord, unloaded]

/-- Settles O7. -/
theorem disabledTransactionsAreRefused : Obligations.DisabledTransactionsAreRefused := by
  unfold Obligations.DisabledTransactionsAreRefused
  exact fun s bs p =>
    ⟨step_of_not_ready, fun h => ⟨load_of_ready h bs, loadFailed_of_ready h, setPolicy_of_ready h p⟩,
      fun h hp => load_of_policy_none h hp bs, fun h => setPolicy_of_not_ready h p⟩

end Sys2Proof.Machine
end

section
/-!
SUPPORT. Reading back an encoding: what each part of the decoder answers where the bytes of its part stand at the cursor, composed along the
formats of R63 to R66 into the whole fetch.
-/

namespace Sys2Proof

open Sys2Proof.Machine

/-- Wherever the bytes `bs` stand at the cursor, `x` consumes exactly those and answers `a`. -/
def ReadsBytes {α : Type} (x : Decoder α) (bs : List Byte) (a : α) : Prop :=
  ∀ c, Memory.holdsAt c.stream c.len c.cur bs → ∃ d, x c = .ok a d ∧ Consumed c d bs

theorem readsBytes_pure {α : Type} (a : α) : ReadsBytes (pure a) [] a :=
  fun c h => ⟨c, rfl, h, rfl, rfl, rfl⟩

theorem ReadsBytes.bind {α β : Type} {x : Decoder α} {f : α → Decoder β} {as bs : List Byte} {a : α} {b : β}
    (hx : ReadsBytes x as a) (hf : ReadsBytes (f a) bs b) : ReadsBytes (x >>= f) (as ++ bs) b := by
  intro c h
  obtain ⟨has, hbs⟩ := (Memory.holdsAt_append ..).1 h
  obtain ⟨d, hd, hcd⟩ := hx c has
  rw [← hcd.stream, ← hcd.len, ← hcd.cur] at hbs
  obtain ⟨e, he, hde⟩ := hf d hbs
  exact ⟨e, (Decoder.bind_ok hd).trans he, hcd.append hde⟩

/-- A read whose value is only repackaged. -/
theorem ReadsBytes.map {α β : Type} {x : Decoder α} {bs : List Byte} {a : α} (hx : ReadsBytes x bs a) (k : α → β) :
    ReadsBytes (do let v ← x; return k v) bs (k a) := by
  simpa using hx.bind (f := fun v => pure (k v)) (readsBytes_pure (k a))

/-! ### The parts of an encoding -/

theorem readsBytes_readAddress (a : U16) : ReadsBytes readAddress (bytesOf a) a := fun c h =>
  have ha := readAddress_of_holdsAt (c := c) (bs := []) h
  ⟨_, ha, readAddress_consumed ha⟩

theorem readsBytes_readImm8 (interp : Byte → Int) (v : Byte) : ReadsBytes (readImm8 interp) [v] v := fun c h =>
  have hv := readImm8_of_holdsAt (c := c) interp h
  ⟨_, hv, readImm8_consumed hv⟩

theorem readsBytes_readImm16 (interp : U16 → Int) (v : U16) : ReadsBytes (readImm16 interp) (bytesOf v) v := fun c h =>
  have hv := readImm16_of_holdsAt (c := c) (bs := []) interp h
  ⟨_, hv, readImm16_consumed hv⟩

theorem readsBytes_parseRm {rm : Rm} (hw : rm.WellFormed) (reg : BitVec 3) :
    ReadsBytes parseRm (modrmByte reg rm :: rmTail rm) (reg, rm) := fun c h =>
  have hp := parseRm_of_holdsAt (c := c) (bs := []) hw (by simpa using h)
  ⟨_, hp, (parseRm_consumed hp).2⟩

/-- The leading byte, then the reads of its form. -/
theorem readsBytes_fetchInstr {b1 : Byte} {bs : List Byte} {i : Instr} (hform : ReadsBytes (readForm b1) bs i) :
    ReadsBytes fetchInstr (b1 :: bs) i := by
  intro c h
  obtain ⟨hl, hb, hbs⟩ := (Memory.holdsAt_cons ..).1 h
  have hlead : Consumed c (afterLeading b1 c) [b1] := ⟨Memory.holdsAt_of_read hl hb, rfl, rfl, rfl⟩
  obtain ⟨d, hd, hcd⟩ := hform (afterLeading b1 c) hbs
  exact ⟨d, (fetchInstr_leading h).trans hd, hlead.append hcd⟩

/-! ### The whole instruction -/

/-- The fetch reads every well-formed instruction back from its encoding. -/
theorem readsBytes_encode {i : Instr} (hw : i.WellFormed) : ReadsBytes fetchInstr (encode i) i := by
  cases i with
  | movRm8R8 reg rm | movRm16R16 reg rm | movR8Rm8 reg rm | movR16Rm16 reg rm =>
    exact readsBytes_fetchInstr ((readsBytes_parseRm (of_decide_eq_true hw) reg).map _)
  | movRm8Imm8 ext rm v =>
    exact readsBytes_fetchInstr
      ((readsBytes_parseRm (of_decide_eq_true hw) ext).bind ((readsBytes_readImm8 sext8 v).map _))
  | movRm16Imm16 ext rm v =>
    exact readsBytes_fetchInstr
      ((readsBytes_parseRm (of_decide_eq_true hw) ext).bind ((readsBytes_readImm16 sext16 v).map _))
  | movR8Imm8 reg v =>
    obtain ⟨hform, hwidth, hreg⟩ := leading_immReg8 reg
    refine readsBytes_fetchInstr ?_
    rw [readForm, hform, hwidth, hreg]
    exact (readsBytes_readImm8 zext8 v).map _
  | movR16Imm16 reg v =>
    obtain ⟨hform, hwidth, hreg⟩ := leading_immReg16 reg
    refine readsBytes_fetchInstr ?_
    rw [readForm, hform, hwidth, hreg]
    exact (readsBytes_readImm16 zext16 v).map _
  | movAlMem a | movAxMem a | movMemAl a | movMemAx a =>
    exact readsBytes_fetchInstr ((readsBytes_readAddress a).map _)
  | unsupported b1 =>
    refine readsBytes_fetchInstr ?_
    rw [readForm, (formOf_unsupported_iff b1).2 (of_decide_eq_true hw)]
    exact readsBytes_pure _

/-- The lemmas of `Laws.Encoding`, one per constructor, as one. -/
theorem encoding_statement : ∀ i : Instr, Laws.Encoding.Statement i
  | .movRm8R8 reg rm => Laws.Encoding.movRm8R8 reg rm
  | .movRm16R16 reg rm => Laws.Encoding.movRm16R16 reg rm
  | .movR8Rm8 reg rm => Laws.Encoding.movR8Rm8 reg rm
  | .movR16Rm16 reg rm => Laws.Encoding.movR16Rm16 reg rm
  | .movRm8Imm8 ext rm v => Laws.Encoding.movRm8Imm8 ext rm v
  | .movRm16Imm16 ext rm v => Laws.Encoding.movRm16Imm16 ext rm v
  | .movR8Imm8 reg v => Laws.Encoding.movR8Imm8 reg v
  | .movR16Imm16 reg v => Laws.Encoding.movR16Imm16 reg v
  | .movAlMem a => Laws.Encoding.movAlMem a
  | .movAxMem a => Laws.Encoding.movAxMem a
  | .movMemAl a => Laws.Encoding.movMemAl a
  | .movMemAx a => Laws.Encoding.movMemAx a
  | .unsupported b1 => Laws.Encoding.unsupported b1

/-- Settles O14: the fetch consumes the encoding, whose length is that of R70. -/
theorem decodeOfEncode : Obligations.DecodeOfEncode := by
  unfold Obligations.DecodeOfEncode
  intro i c hw h
  obtain ⟨d, hd, hcd⟩ := readsBytes_encode hw c h
  exact ⟨d, hd, (encoding_statement i hw).1 ▸ hcd.cur, hcd.stream, hcd.len⟩

/-- Settles O15: a fetch that goes on has consumed the encoding of a well-formed instruction. -/
theorem encodeOfDecode : Obligations.EncodeOfDecode := by
  unfold Obligations.EncodeOfDecode
  intro i c d h
  obtain ⟨hw, hc, -⟩ := fetched_of_fetchInstr h
  exact ⟨hw, hc.holds, hc.cur⟩

/-- Settles O21: the fetch reads the instruction back, and the step runs what the fetch reads. -/
theorem stepRunsEncodedInstruction : Obligations.StepRunsEncodedInstruction := by
  unfold Obligations.StepRunsEncodedInstruction
  intro s i hr hw h
  obtain ⟨d, hd, -⟩ := readsBytes_encode hw (cursorOf s) h
  have hfit : s.cur + (encode i).length ≤ s.len := h.1
  have hpos := encode_length_pos i
  exact step_of_fetch_ok hr (by omega) hd

end Sys2Proof
end

section
/-!
SUPPORT. Form `RM_REG`: its bytes, read off the latches (R82).
-/

namespace Sys2Proof

open Sys2Proof.Machine

/-- The ModR/M operand whose fields the latches `MOD`, `RM`, `DISP` and `ADDR` hold. -/
def rmOfFields (mod : BitVec 2) (rm : BitVec 3) : Option Int → Option U16 → Rm
  | _, some a => .direct a
  | some v, none => if mod = 0b01#2 then .disp8 rm (BitVec.ofInt 8 v) else .disp16 rm (BitVec.ofInt 16 v)
  | none, none => if mod = 0b11#2 then .reg rm else .noDisp rm

/-- The four latches determine the operand. -/
theorem rmOfFields_fields (rm : Rm) : rmOfFields (rmModBits rm) (rmBits rm) (rmDisp rm) (rmAddr rm) = rm := by
  cases rm <;> simp [rmOfFields, rmModBits, rmBits, rmDisp, rmAddr]

/-- An instruction of form `RM_REG` begins with `100010dw` (R63), and its latches are those of its fields. -/
theorem encode_of_rmReg {i : Instr} (h : instrForm i = .rmReg) :
    ∃ (d w : BitVec 1) (reg : BitVec 3) (rm : Rm),
      encode i = (0b100010#6 ++ d ++ w : Byte) :: modrmByte reg rm :: rmTail rm ∧
        ∀ start, instrLatches start i = rmRegLatches start (0b100010#6 ++ d ++ w) d w reg rm := by
  cases i with
  | movRm8R8 reg rm => exact ⟨0#1, 0#1, reg, rm, rfl, fun _ => rfl⟩
  | movRm16R16 reg rm => exact ⟨0#1, 1#1, reg, rm, rfl, fun _ => rfl⟩
  | movR8Rm8 reg rm => exact ⟨1#1, 0#1, reg, rm, rfl, fun _ => rfl⟩
  | movR16Rm16 reg rm => exact ⟨1#1, 1#1, reg, rm, rfl, fun _ => rfl⟩
  | movRm8Imm8 | movRm16Imm16 | movR8Imm8 | movR16Imm16 | movAlMem | movAxMem | movMemAl | movMemAx | unsupported => cases h

theorem rmRegLatches_eq (start : Nat) (b1 : Byte) (d w : BitVec 1) (reg : BitVec 3) (rm : Rm) :
    rmRegLatches start b1 d w reg rm =
      modrmFields reg rm { latchedLeading start b1 .rmReg with d := some d, w := some w } :=
  latchedModrm_eq reg rm _ rfl rfl

@[simp] theorem latchedModrm_form (reg : BitVec 3) (rm : Rm) (l : Latches) : (latchedModrm reg rm l).form = l.form := by
  cases rm <;> rfl

/-- The latch `FORM` holds the instruction's form. -/
@[simp] theorem instrLatches_form (start : Nat) (i : Instr) : (instrLatches start i).form = some (instrForm i) := by
  cases i with
  | movRm8R8 | movRm16R16 | movR8Rm8 | movR16Rm16 | movRm8Imm8 | movRm16Imm16 => exact latchedModrm_form ..
  | movR8Imm8 | movR16Imm16 | movAlMem | movAxMem | movMemAl | movMemAx | unsupported => rfl

/-- A fetch that latched form `RM_REG` has read the bytes its latches determine. -/
theorem encode_of_fetched_rmReg {c d : Cursor} {i : Instr} (h : fetchInstr c = .ok i d)
    (hform : d.latches.form = some .rmReg) :
    ∃ (db w : BitVec 1) (reg : BitVec 3) (rm : Rm),
      encode i = (0b100010#6 ++ db ++ w : Byte) :: modrmByte reg rm :: rmTail rm ∧
        d.latches = modrmFields reg rm
          { latchedLeading c.cur (0b100010#6 ++ db ++ w) .rmReg with d := some db, w := some w } := by
  have hl := (fetched_of_fetchInstr h).latches
  rw [hl, instrLatches_form, Option.some.injEq] at hform
  obtain ⟨db, w, reg, rm, henc, hlatches⟩ := encode_of_rmReg hform
  exact ⟨db, w, reg, rm, henc, by rw [hl, hlatches, rmRegLatches_eq]⟩

/-- Settles O16: equal latches hold equal fields, and the fields are the bytes. -/
theorem registerMemoryLatchesDetermineBytes : Obligations.RegisterMemoryLatchesDetermineBytes := by
  unfold Obligations.RegisterMemoryLatchesDetermineBytes
  intro i j c d c' d' hi hj hfi hfj hw hmod hreg hrm hd hdisp haddr
  obtain ⟨d1, w1, reg1, rm1, henc1, hl1⟩ := encode_of_fetched_rmReg hi hfi
  obtain ⟨d2, w2, reg2, rm2, henc2, hl2⟩ := encode_of_fetched_rmReg hj hfj
  simp only [hl1, hl2, modrmFields, Option.some.injEq] at hw hmod hreg hrm hd hdisp haddr
  have hoperand : rm1 = rm2 := by
    rw [← rmOfFields_fields rm1, hmod, hrm, hdisp, haddr, rmOfFields_fields]
  rw [henc1, henc2, hd, hw, hreg, hoperand]

end Sys2Proof
end

section
/-!
SUPPORT. The leading bytes, the worked words and the read groups (R62, R70, R94).
-/

namespace Sys2Proof

open Sys2Proof.Machine

/-- Settles O12, by evaluating the 256 leading bytes. -/
theorem opcodeMapOfLeadingBytes : Obligations.OpcodeMapOfLeadingBytes := by
  unfold Obligations.OpcodeMapOfLeadingBytes
  decide

/-- Settles O13, by running the decoder on each word. -/
theorem familyWordsDecodeRight : Obligations.FamilyWordsDecodeRight := by
  unfold Obligations.FamilyWordsDecodeRight
  exact ⟨rfl, rfl, rfl, rfl, rfl, rfl, rfl⟩

theorem dispGroup_sum (rm : Rm) : (dispGroup rm).sum = dispBytes rm := by
  cases rm <;> rfl

theorem dispGroup_size (rm : Rm) : ∀ n ∈ dispGroup rm, n = 1 ∨ n = 2 := by
  cases rm <;> simp [dispGroup]

/-- The lengths of R70, as the leading byte and the read groups (R94). -/
theorem encode_length_eq_groups (i : Instr) : (encode i).length = 1 + (readGroups i).sum := by
  cases i with
  | movRm8R8 _ rm | movRm16R16 _ rm | movR8Rm8 _ rm | movR16Rm16 _ rm | movRm8Imm8 _ rm _ | movRm16Imm16 _ rm _ =>
    simp only [encode, readGroups, bytesOf, List.length_cons, List.length_append, List.length_nil,
      Laws.Encoding.rmTail_length_eq, List.sum_cons, List.sum_append, List.sum_nil, dispGroup_sum]
    omega
  | movR8Imm8 | movR16Imm16 | movAlMem | movAxMem | movMemAl | movMemAx | unsupported => rfl

theorem readGroups_size (i : Instr) : ∀ n ∈ readGroups i, n = 1 ∨ n = 2 := by
  cases i with
  | movRm8R8 _ rm | movRm16R16 _ rm | movR8Rm8 _ rm | movR16Rm16 _ rm =>
    simpa [readGroups] using dispGroup_size rm
  | movRm8Imm8 _ rm _ | movRm16Imm16 _ rm _ =>
    simpa [readGroups, or_imp, forall_and] using dispGroup_size rm
  | movR8Imm8 | movR16Imm16 | movAlMem | movAxMem | movMemAl | movMemAx | unsupported => simp [readGroups]

/-- Settles O18. -/
theorem readGroupsMakeUpInstruction : Obligations.ReadGroupsMakeUpInstruction := by
  unfold Obligations.ReadGroupsMakeUpInstruction
  exact fun i => ⟨encode_length_eq_groups i, readGroups_size i⟩

end Sys2Proof
end

section
/-!
SUPPORT. The ByteCursor over a backed stream (`40_bytecursor.md` rules R92, R93, R95, R97): `next_byte` and `read16`, and that no read of the
decoder misses a byte, so that the loop always has a next state.
-/

namespace Sys2Proof.Machine

/-! ### `next_byte` and `read16` -/

theorem Memory.read_of_backs {m : Memory} {n a : Nat} (h : Memory.backs m n = true) (ha : a < n) :
    ∃ b, Memory.read m a = some b :=
  Option.isSome_iff_exists.1 ((Memory.read_isSome_of_backs h a).2 ha)

/-- Settles O9: the backed stream has a byte at every index below `LEN`. -/
theorem nextByteReadsAndAdvances : Obligations.NextByteReadsAndAdvances := by
  unfold Obligations.NextByteReadsAndAdvances
  intro c h
  refine ⟨decide_eq_true_iff, fun hc => ?_, fun hc => nextByte_eq_error.2 ⟨rfl, .inl ⟨hc, rfl⟩⟩⟩
  obtain ⟨b, hb⟩ := Memory.read_of_backs h hc
  exact ⟨b, hb, nextByte_ok hc hb⟩

/-- Settles O10: two bytes stand at the cursor, and the quantity they make is `lo + 256 * hi`. -/
theorem read16IsLittleEndian : Obligations.Read16IsLittleEndian := by
  unfold Obligations.Read16IsLittleEndian
  intro c h hneed
  have hleft : 2 ≤ c.len - c.cur := (need_eq_ok.1 hneed).1
  obtain ⟨lo, hlo⟩ := Memory.read_of_backs h (a := c.cur) (by omega)
  obtain ⟨hi, hhi⟩ := Memory.read_of_backs h (a := c.cur + 1) (by omega)
  have hholds : Memory.holdsAt c.stream c.len c.cur [lo, hi] :=
    (Memory.holdsAt_cons ..).2 ⟨by omega, hlo, Memory.holdsAt_of_read (by omega) hhi⟩
  exact ⟨lo, hi, _, hlo, hhi, read16_of_holdsAt hholds, littleEndian_toNat lo hi⟩

/-! ### A backed stream misses no byte -/

/-- `x` leaves the stream alone and, where the stream is backed, does not stop at a missing byte. -/
structure NeverUnbacked {α : Type} (x : Decoder α) : Prop where
  ok : ∀ {c d a}, x c = .ok a d → d.stream = c.stream ∧ d.len = c.len
  error : ∀ {c d addr}, Memory.backs c.stream c.len = true → x c ≠ .error (.unbacked addr) d

theorem neverUnbacked_pure {α : Type} (a : α) : NeverUnbacked (pure a : Decoder α) where
  ok h := by cases h; exact ⟨rfl, rfl⟩
  error _ h := by cases h

theorem NeverUnbacked.bind {α β : Type} {x : Decoder α} {f : α → Decoder β} (hx : NeverUnbacked x)
    (hf : ∀ a, NeverUnbacked (f a)) : NeverUnbacked (x >>= f) where
  ok h := by
    obtain ⟨a, c', h1, h2⟩ := Decoder.bind_eq_ok.1 h
    obtain ⟨hstream, hlen⟩ := hx.ok h1
    exact hstream ▸ hlen ▸ (hf a).ok h2
  error hc h := by
    obtain h1 | ⟨a, c', h1, h2⟩ := Decoder.bind_eq_error.1 h
    · exact hx.error hc h1
    · obtain ⟨hstream, hlen⟩ := hx.ok h1
      exact (hf a).error (hstream ▸ hlen ▸ hc) h2

theorem neverUnbacked_latch (g : Latches → Latches) : NeverUnbacked (latch g) where
  ok h := by cases h; exact ⟨rfl, rfl⟩
  error _ h := by cases h

theorem neverUnbacked_cursorIndex : NeverUnbacked cursorIndex where
  ok h := by cases h; exact ⟨rfl, rfl⟩
  error _ h := by cases h

theorem neverUnbacked_need (n : Nat) : NeverUnbacked (need n) where
  ok h := by obtain ⟨-, rfl⟩ := need_eq_ok.1 h; exact ⟨rfl, rfl⟩
  error _ h := by obtain ⟨-, hwhy, -⟩ := need_eq_error.1 h; cases hwhy

theorem neverUnbacked_nextByte : NeverUnbacked nextByte where
  ok h := by obtain ⟨-, -, rfl⟩ := nextByte_eq_ok.1 h; exact ⟨rfl, rfl⟩
  error hc h := by
    obtain ⟨-, ⟨-, hwhy⟩ | ⟨hl, hnone, -⟩⟩ := nextByte_eq_error.1 h
    · cases hwhy
    · obtain ⟨b, hb⟩ := Memory.read_of_backs hc hl
      cases hb.symm.trans hnone

theorem neverUnbacked_read16 : NeverUnbacked read16 :=
  neverUnbacked_nextByte.bind fun _ => neverUnbacked_nextByte.bind fun _ => neverUnbacked_pure _

/-- A read group: `need n`, its bytes, its latches. -/
theorem NeverUnbacked.group {α β : Type} {x : Decoder α} (hx : NeverUnbacked x) (n : Nat) (g : α → Latches → Latches)
    (k : α → β) : NeverUnbacked (do need n; let v ← x; latch (g v); return k v) :=
  (neverUnbacked_need n).bind fun _ => hx.bind fun _ => (neverUnbacked_latch _).bind fun _ => neverUnbacked_pure _

theorem neverUnbacked_readAddress : NeverUnbacked readAddress := neverUnbacked_read16.group 2 _ id

theorem neverUnbacked_readImm8 (interp : Byte → Int) : NeverUnbacked (readImm8 interp) :=
  neverUnbacked_nextByte.group 1 _ id

theorem neverUnbacked_readImm16 (interp : U16 → Int) : NeverUnbacked (readImm16 interp) :=
  neverUnbacked_read16.group 2 _ id

theorem neverUnbacked_readRmTail (mod : BitVec 2) (rm : BitVec 3) : NeverUnbacked (readRmTail mod rm) := by
  unfold readRmTail
  split
  · exact neverUnbacked_pure _
  split
  · split
    · exact neverUnbacked_readAddress.bind fun _ => neverUnbacked_pure _
    · exact neverUnbacked_pure _
  split
  · exact (neverUnbacked_nextByte.group 1 _ id).bind fun _ => neverUnbacked_pure _
  · exact (neverUnbacked_read16.group 2 _ id).bind fun _ => neverUnbacked_pure _

theorem neverUnbacked_parseRm : NeverUnbacked parseRm :=
  NeverUnbacked.bind (neverUnbacked_nextByte.group 1 _ _) fun (mod, _, rm) =>
    (neverUnbacked_readRmTail mod rm).bind fun _ => neverUnbacked_pure _

theorem neverUnbacked_readImmRm (w : BitVec 1) : NeverUnbacked (readImmRm w) :=
  neverUnbacked_parseRm.bind fun (_, _) => by
    cases widthOf w with
    | byte => exact (neverUnbacked_readImm8 _).bind fun _ => neverUnbacked_pure _
    | word => exact (neverUnbacked_readImm16 _).bind fun _ => neverUnbacked_pure _

theorem neverUnbacked_readImmReg (w : BitVec 1) (reg : BitVec 3) : NeverUnbacked (readImmReg w reg) := by
  unfold readImmReg
  cases widthOf w with
  | byte => exact (neverUnbacked_readImm8 _).bind fun _ => neverUnbacked_pure _
  | word => exact (neverUnbacked_readImm16 _).bind fun _ => neverUnbacked_pure _

theorem neverUnbacked_readForm (b1 : Byte) : NeverUnbacked (readForm b1) := by
  unfold readForm
  cases formOf b1 with
  | rmReg => exact neverUnbacked_parseRm.bind fun (_, _) => neverUnbacked_pure _
  | immRm => exact neverUnbacked_readImmRm _
  | immReg => exact neverUnbacked_readImmReg _ _
  | memAcc => exact neverUnbacked_readAddress.bind fun _ => neverUnbacked_pure _
  | accMem => exact neverUnbacked_readAddress.bind fun _ => neverUnbacked_pure _
  | unsupported => exact neverUnbacked_pure _

/-- The whole fetch, so that in a backed stream a step never raises the model's fault. -/
theorem neverUnbacked_fetchInstr : NeverUnbacked fetchInstr :=
  neverUnbacked_cursorIndex.bind fun _ => (neverUnbacked_latch _).bind fun _ =>
    neverUnbacked_nextByte.bind fun b1 => (neverUnbacked_latch _).bind fun _ => neverUnbacked_readForm b1

/-! ### The loop has a next state -/

/-- In `READY`, over a backed stream, a step answers a next state. -/
theorem step_next_of_backed {s : State} (hr : s.run = .ready) (h : Memory.backs s.stream s.len = true) :
    ∃ t, step s = .next t := by
  by_cases hl : s.cur < s.len
  case neg => exact ⟨_, step_of_end hr (Nat.not_lt.mp hl)⟩
  cases hf : fetchInstr (cursorOf s) with
  | ok i c =>
    obtain ⟨t, ht, -⟩ := cursorOf_exec (fetched_of_fetchInstr hf).wellFormed s
    exact ⟨t, (step_of_fetch_ok hr hl hf).trans ht⟩
  | error why c =>
    rw [step_of_fetch_error hr hl hf]
    cases why with
    | truncated | cursorOverrun => exact ⟨_, rfl⟩
    | unbacked addr => exact absurd hf (neverUnbacked_fetchInstr.error h)

/-- A record is one the log held before, or of a kind a step can raise. -/
def OldOrStepError (log : List ErrRec) (r : ErrRec) : Prop :=
  r ∈ log ∨ r.kind = .unsupportedInstruction ∨ r.kind = .truncatedStream ∨ r.kind = .sinkFailure

theorem oldOrStepError_append {log : List ErrRec} {r : ErrRec}
    (h : r.kind = .unsupportedInstruction ∨ r.kind = .truncatedStream ∨ r.kind = .sinkFailure) :
    ∀ q ∈ log ++ [r], OldOrStepError log q := by
  intro q hq
  obtain hq | hq := List.mem_append.1 hq
  · exact .inl hq
  · exact List.mem_singleton.1 hq ▸ .inr h

/-- No step raises `CursorOverrun` or `LoadFailure`. -/
theorem StepTo.log_records {s t : State} (h : StepTo s t) : ∀ r ∈ t.log, OldOrStepError s.log r := by
  cases h with
  | ended => exact fun _ hr => .inl hr
  | mov n _ _ l i =>
    cases ha : sinkAnswer s with
    | ok => rw [complete_ok ha]; exact fun _ hr => .inl hr
    | fail => rw [complete_fail ha]; exact oldOrStepError_append (.inr (.inr rfl))
  | unsupported => exact oldOrStepError_append (.inl rfl)
  | truncated => exact oldOrStepError_append (.inr (.inl rfl))

/-- Settles O25: the invariant's backed stream gives the next state, and each thing a step can do records only such errors. -/
theorem loopNeverOverrunsCursor : Obligations.LoopNeverOverrunsCursor := by
  unfold Obligations.LoopNeverOverrunsCursor
  intro s h hr
  obtain ⟨t, ht⟩ := step_next_of_backed hr h.stream_backed
  exact ⟨t, ht, (step_eq_next ht).2.log_records⟩

end Sys2Proof.Machine
end

section
/-!
SUPPORT. A stream that ends inside an instruction (R94, R120, R202): each part of the decoder stops at its first read group that is not wholly
there, composed along the formats of R63 to R66 into the whole fetch.
-/

namespace Sys2Proof

open Sys2Proof.Machine

/-- With `k` bytes left from cursor `c`, `x`, whose read groups are `gs`, consumes the groups wholly among those and stops at the next. -/
def StopsInGroup {α : Type} (x : Decoder α) (gs : List Nat) (k : Nat) (c : Cursor) : Prop :=
  ∃ earlier need later d, gs = earlier ++ need :: later ∧ earlier.sum ≤ k ∧ k < earlier.sum + need ∧
    x c = .error (.truncated need (k - earlier.sum)) d ∧ d.cur = c.cur + earlier.sum ∧ d.stream = c.stream ∧ d.len = c.len

/-- `x` reads the bytes `bs` as `a`, in the read groups `gs`, and stops inside those where the stream ends before all of `bs`. -/
structure ReadsInGroups {α : Type} (x : Decoder α) (bs : List Byte) (gs : List Nat) (a : α) : Prop where
  reads : ReadsBytes x bs a
  sum : gs.sum = bs.length
  cut : ∀ c k, k < bs.length → Memory.holdsAt c.stream c.len c.cur (bs.take k) → c.len = c.cur + k →
    StopsInGroup x gs k c

theorem readsInGroups_pure {α : Type} (a : α) : ReadsInGroups (pure a) [] [] a :=
  ⟨readsBytes_pure a, rfl, fun _ _ hk => absurd hk (Nat.not_lt_zero _)⟩

/-- A read group: `need n` and then whatever reads its `n` bytes. -/
theorem readsInGroups_group {α : Type} {n : Nat} {f : Unit → Decoder α} {bs : List Byte} {a : α}
    (h : ReadsBytes (need n >>= f) bs a) (hn : n = bs.length) : ReadsInGroups (need n >>= f) bs [n] a where
  reads := h
  sum := by simpa using hn
  cut c k hk _ hlen := by
    have hleft : c.len - c.cur = k := by omega
    have hshort : need n c = .error (.truncated n k) c := hleft ▸ need_short (by omega)
    exact ⟨[], n, [], c, rfl, Nat.zero_le _, by simpa [hn] using hk, Decoder.bind_error hshort, rfl, rfl, rfl⟩

theorem ReadsInGroups.bind {α β : Type} {x : Decoder α} {f : α → Decoder β} {as bs : List Byte} {gs hs : List Nat}
    {a : α} {b : β} (hx : ReadsInGroups x as gs a) (hf : ReadsInGroups (f a) bs hs b) :
    ReadsInGroups (x >>= f) (as ++ bs) (gs ++ hs) b where
  reads := hx.reads.bind hf.reads
  sum := by rw [List.sum_append, List.length_append, hx.sum, hf.sum]
  cut c k hk h hlen := by
    rw [List.length_append] at hk
    obtain hlt | hge := Nat.lt_or_ge k as.length
    · -- the stream ends inside `as`
      rw [List.take_append_of_le_length hlt.le] at h
      obtain ⟨earlier, need, later, d, rfl, hle, hgt, he, hd⟩ := hx.cut c k hlt h hlen
      exact ⟨earlier, need, later ++ hs, d, by simp, hle, hgt, Decoder.bind_error he, hd⟩
    · -- `as` is wholly there, and the stream ends inside `bs`
      rw [List.take_append, List.take_of_length_le hge] at h
      obtain ⟨has, hbs⟩ := (Memory.holdsAt_append ..).1 h
      obtain ⟨d, hd, hcd⟩ := hx.reads c has
      rw [← hcd.stream, ← hcd.len, ← hcd.cur] at hbs
      obtain ⟨earlier, need, later, e, rfl, hle, hgt, he, hcur, hstream, hlen'⟩ :=
        hf.cut d (k - as.length) (by omega) hbs (by rw [hcd.len, hcd.cur]; omega)
      have hsum : (gs ++ earlier).sum = as.length + earlier.sum := by rw [List.sum_append, hx.sum]
      refine ⟨gs ++ earlier, need, later, e, by simp, by omega, by omega, ?_, ?_, hstream.trans hcd.stream,
        hlen'.trans hcd.len⟩
      · rw [hsum, Nat.sub_add_eq]
        exact (Decoder.bind_ok hd).trans he
      · rw [hsum, hcur, hcd.cur, Nat.add_assoc]

/-- A read whose value is only repackaged. -/
theorem ReadsInGroups.map {α β : Type} {x : Decoder α} {bs : List Byte} {gs : List Nat} {a : α}
    (hx : ReadsInGroups x bs gs a) (k : α → β) : ReadsInGroups (do let v ← x; return k v) bs gs (k a) := by
  simpa using hx.bind (f := fun v => pure (k v)) (readsInGroups_pure (k a))

/-! ### The parts of an encoding -/

theorem readsInGroups_readAddress (a : U16) : ReadsInGroups readAddress (bytesOf a) [2] a :=
  readsInGroups_group (readsBytes_readAddress a) rfl

theorem readsInGroups_readImm8 (interp : Byte → Int) (v : Byte) : ReadsInGroups (readImm8 interp) [v] [1] v :=
  readsInGroups_group (readsBytes_readImm8 interp v) rfl

theorem readsInGroups_readImm16 (interp : U16 → Int) (v : U16) : ReadsInGroups (readImm16 interp) (bytesOf v) [2] v :=
  readsInGroups_group (readsBytes_readImm16 interp v) rfl

theorem readsInGroups_readDisp8 (v : Byte) : ReadsInGroups readDisp8 [v] [1] v :=
  readsInGroups_group (fun _ h => ⟨_, readDisp8_of_holdsAt h, h, rfl, rfl, rfl⟩) rfl

theorem readsInGroups_readDisp16 (v : U16) : ReadsInGroups readDisp16 (bytesOf v) [2] v :=
  readsInGroups_group (fun _ h => ⟨_, readDisp16_of_holdsAt (bs := []) h, h, rfl, rfl, rfl⟩) rfl

theorem readsInGroups_readModrm (reg : BitVec 3) (rm : Rm) :
    ReadsInGroups readModrm [modrmByte reg rm] [1] (rmModBits rm, reg, rmBits rm) :=
  readsInGroups_group (fun _ h => ⟨_, readModrm_of_holdsAt h, h, rfl, rfl, rfl⟩) rfl

theorem readsInGroups_readRmTail {rm : Rm} (hw : rm.WellFormed) :
    ReadsInGroups (readRmTail (rmModBits rm) (rmBits rm)) (rmTail rm) (dispGroup rm) rm := by
  cases rm with
  | reg rm => exact readsInGroups_pure _
  | noDisp rm =>
    have hbase : rm ≠ 0b110#3 := fun e => hw (e ▸ rfl)
    have htail : readRmTail (rmModBits (.noDisp rm)) (rmBits (.noDisp rm)) = pure (.noDisp rm) := by
      simp [readRmTail, rmModBits, rmBits, hbase]
    exact htail ▸ readsInGroups_pure _
  | direct a => exact (readsInGroups_readAddress a).map _
  | disp8 rm d => exact (readsInGroups_readDisp8 d).map _
  | disp16 rm d => exact (readsInGroups_readDisp16 d).map _

theorem readsInGroups_parseRm {rm : Rm} (hw : rm.WellFormed) (reg : BitVec 3) :
    ReadsInGroups parseRm (modrmByte reg rm :: rmTail rm) (1 :: dispGroup rm) (reg, rm) :=
  (readsInGroups_readModrm reg rm).bind ((readsInGroups_readRmTail hw).map _)

/-! ### The whole instruction -/

/-- After the leading byte of a well-formed instruction, its form reads the rest in the groups of R94. -/
theorem readsInGroups_readForm {i : Instr} (hw : i.WellFormed) :
    ∃ b1 bs, encode i = b1 :: bs ∧ ReadsInGroups (readForm b1) bs (readGroups i) i := by
  cases i with
  | movRm8R8 reg rm | movRm16R16 reg rm | movR8Rm8 reg rm | movR16Rm16 reg rm =>
    exact ⟨_, _, rfl, (readsInGroups_parseRm (of_decide_eq_true hw) reg).map _⟩
  | movRm8Imm8 ext rm v =>
    exact ⟨_, _, rfl,
      (readsInGroups_parseRm (of_decide_eq_true hw) ext).bind ((readsInGroups_readImm8 sext8 v).map _)⟩
  | movRm16Imm16 ext rm v =>
    exact ⟨_, _, rfl,
      (readsInGroups_parseRm (of_decide_eq_true hw) ext).bind ((readsInGroups_readImm16 sext16 v).map _)⟩
  | movR8Imm8 reg v =>
    obtain ⟨hform, hwidth, hreg⟩ := leading_immReg8 reg
    refine ⟨_, _, rfl, ?_⟩
    rw [readForm, hform, hwidth, hreg]
    exact (readsInGroups_readImm8 zext8 v).map _
  | movR16Imm16 reg v =>
    obtain ⟨hform, hwidth, hreg⟩ := leading_immReg16 reg
    refine ⟨_, _, rfl, ?_⟩
    rw [readForm, hform, hwidth, hreg]
    exact (readsInGroups_readImm16 zext16 v).map _
  | movAlMem a | movAxMem a | movMemAl a | movMemAx a => exact ⟨_, _, rfl, (readsInGroups_readAddress a).map _⟩
  | unsupported b1 =>
    refine ⟨_, _, rfl, ?_⟩
    rw [readForm, (formOf_unsupported_iff b1).2 (of_decide_eq_true hw)]
    exact readsInGroups_pure _

/-- Settles O17: the leading byte is there, and the reads of its form stop inside their groups. -/
theorem truncatedEncodingStops : Obligations.TruncatedEncodingStops := by
  unfold Obligations.TruncatedEncodingStops
  intro i k c hw hpos hk h hlen
  obtain ⟨b1, bs, henc, hform⟩ := readsInGroups_readForm hw
  obtain ⟨j, rfl⟩ := Nat.exists_eq_succ_of_ne_zero hpos.ne'
  rw [henc, List.take_succ_cons] at h
  rw [henc, List.length_cons] at hk
  obtain ⟨-, -, hrest⟩ := (Memory.holdsAt_cons ..).1 h
  obtain ⟨earlier, need, later, d, hgroups, hle, hgt, he, hcur, hstream, hlen'⟩ :=
    hform.cut (afterLeading b1 c) j (by omega) hrest (by simp only [afterLeading]; omega)
  refine ⟨earlier, need, later, d, hgroups, by omega, by omega, ?_, hcur.trans (Nat.add_assoc ..), hstream, hlen'⟩
  rw [Nat.add_comm 1, Nat.succ_sub_succ]
  exact (fetchInstr_leading h).trans he

/-- Settles O45: the fetch stops as O17 says, and the step records that stop as O44 says. -/
theorem truncatedInstructionHaltsRun : Obligations.TruncatedInstructionHaltsRun := by
  unfold Obligations.TruncatedInstructionHaltsRun
  intro i k s hr hw hpos hk h hlen
  obtain ⟨earlier, need, later, d, hgroups, hle, hgt, hf, hcur, -, -⟩ :=
    truncatedEncodingStops i k (cursorOf s) hw hpos hk h hlen
  obtain ⟨b1, bs, henc, -⟩ := readsInGroups_readForm hw
  obtain ⟨j, rfl⟩ := Nat.exists_eq_succ_of_ne_zero hpos.ne'
  rw [henc, List.take_succ_cons] at h
  obtain ⟨hl, hb, -⟩ := (Memory.holdsAt_cons ..).1 h
  obtain ⟨t, ht, hrun, htcur, hout, hcount, -, -, herr, hlog⟩ :=
    truncationRecordLocatesInstruction s b1 need _ d hr hl hb hf
  rw [← htcur] at herr hlog
  rw [henc]
  exact ⟨earlier, need, later, t, hgroups, hle, hgt, ht, htcur.trans hcur, hrun, hout, hcount, herr, hlog⟩

end Sys2Proof
end

section
/-!
SUPPORT. The operand lookup ROM (R100 to R102): the key of a register name in arithmetic, and the contents of the two tables.
-/

namespace Sys2Proof.Machine

/-- The register key of R101: with the width as its high bit, it is `8*w + code`. -/
theorem registerKey_toNat (w : BitVec 1) (code : BitVec 3) : (w ++ code).toNat = 8 * w.toNat + code.toNat := by
  rw [BitVec.toNat_append, ← Nat.shiftLeft_add_eq_or_of_lt code.isLt, Nat.shiftLeft_eq, Nat.mul_comm]

/-- R101: `register_name(width, code) = REGNAME[8*w + code]`. -/
theorem registerName_eq_getElem (w : Width) (code : BitVec 3) :
    registerName w code = regNameRom[8 * (widthToBit w).toNat + code.toNat]'(by omega) :=
  congrArg regNameRom.get (Fin.ext (registerKey_toNat (widthToBit w) code))

/-- Settles O50: the byte codes read entries 0 to 7 of `REGNAME`, the word codes entries 8 to 15, and the `rm` codes all of `BASE`. -/
theorem operandRomContents : Obligations.OperandRomContents := by
  unfold Obligations.OperandRomContents
  simp only [registerName_eq_getElem]
  exact ⟨rfl, rfl, rfl⟩

end Sys2Proof.Machine
end

section
/-!
SUPPORT. The meaning of a MOV, said once for every instruction: it completes with the length of R70, the latches of R18 and the line of R169.
Of an unsupported byte: one record, taken by `POLICY`.
-/

namespace Sys2Proof

open Sys2Proof.Machine

/-! ### The line -/

theorem render_mov (dst src : Operand) (kw : Option Width) :
    render { mnemonic := "mov", dst := dst, src := src, sizeKw := kw } =
      "mov " ++ renderOp dst ++ ", " ++ keyword kw ++ renderOp src := rfl

/-- Without a size keyword only the two operands are written. -/
theorem render_mov_plain (dst src : Operand) :
    render { mnemonic := "mov", dst := dst, src := src, sizeKw := none } =
      "mov " ++ renderOp dst ++ ", " ++ renderOp src := by
  rw [render_mov, keyword, String.append_empty]

/-- The keyword of form `IMM_RM` stands exactly before an immediate to memory. -/
theorem keyword_sizeKeywordFor (w : Width) (rm : Rm) :
    keyword (sizeKeywordFor w (rmOperand w rm)) = keywordText (keyword (some w)) rm := by
  cases rm <;> rfl

/-- The register of code 0 is the accumulator (R105). -/
theorem registerName_zero : registerName .byte 0#3 = "al" ∧ registerName .word 0#3 = "ax" := ⟨rfl, rfl⟩

/-- The lines of the accumulator forms, put together from their operands. -/
theorem accumulator_lines (a : String) :
    ("mov al, [" ++ a ++ "]" = "mov " ++ "al" ++ ", " ++ ("[" ++ a ++ "]")) ∧
    ("mov ax, [" ++ a ++ "]" = "mov " ++ "ax" ++ ", " ++ ("[" ++ a ++ "]")) ∧
    ("mov [" ++ a ++ "], al" = "mov " ++ ("[" ++ a ++ "]") ++ ", " ++ "al") ∧
    ("mov [" ++ a ++ "], ax" = "mov " ++ ("[" ++ a ++ "]") ++ ", " ++ "ax") := by
  simp [← String.toList_inj]

theorem renderOp_reg (w : Width) (code : BitVec 3) : renderOp (.reg w code) = registerName w code := rfl

theorem renderOp_memDirect (a : U16) : renderOp (.memDirect a) = "[" ++ decNat a.toNat ++ "]" := rfl

theorem renderOp_imm (w : Width) (v : Int) : renderOp (.imm w v) = dec v := rfl

theorem dec_natCast (n : Nat) : dec (n : Int) = decNat n := rfl

/-! ### The meaning -/

/-- The meaning of a MOV completes it: its length, its latches, and a record that renders as its line. -/
theorem exec_mov {i : Instr} {line : String} (hw : i.WellFormed) (ht : instrText i = some line) (s : State) :
    ∃ r, render r = line ∧ exec i s = .next (complete (instrLength i) (instrLatches s.cur i) r s) := by
  cases i with
  | unsupported b1 => cases ht
  | movRm8R8 reg rm | movRm16R16 reg rm | movR8Rm8 reg rm | movR16Rm16 reg rm =>
    cases ht
    refine ⟨_, ?_, by rw [instrLength, ← rmDispLength_eq (of_decide_eq_true hw)]; rfl⟩
    rw [render_mov_plain, renderOp_rmOperand, renderOp_reg]
  | movRm8Imm8 ext rm v | movRm16Imm16 ext rm v =>
    cases ht
    refine ⟨_, ?_, by rw [instrLength, ← rmDispLength_eq (of_decide_eq_true hw)]; rfl⟩
    simp only [render_mov, renderOp_rmOperand, keyword_sizeKeywordFor, renderOp_imm, dec_eq_signedText, sext8_eq_toInt,
      sext16_eq_toInt]
    rfl
  | movR8Imm8 reg v | movR16Imm16 reg v =>
    cases ht
    refine ⟨_, ?_, rfl⟩
    rw [render_mov_plain, renderOp_reg, renderOp_imm, dec_natCast]
  | movAlMem a | movAxMem a | movMemAl a | movMemAx a =>
    cases ht
    refine ⟨_, ?_, rfl⟩
    simp only [render_mov_plain, renderOp_reg, renderOp_memDirect, registerName_zero, accumulator_lines]

/-- A MOV whose line the sink accepts. -/
theorem exec_mov_accepted {i : Instr} {line : String} {s : State} (hw : i.WellFormed) (ht : instrText i = some line)
    (hok : sinkAnswer s = .ok) : exec i s = .next (afterMov (instrLength i) (instrLatches s.cur i) line s) := by
  obtain ⟨r, rfl, he⟩ := exec_mov hw ht s
  rw [he, complete_eq_afterMov hok]

/-! ### The unsupported byte -/

theorem exec_unsupported (b1 : Byte) (s : State) :
    exec (.unsupported b1) s = .next (raise (unsupportedRecord s.cur b1 (s.cur + 1))
      (consume 1 (latchedLeading s.cur b1 .unsupported) s)) := rfl

/-- Under `SKIP` an `UnsupportedInstruction` is recorded and counted (R201). -/
theorem raise_unsupported_of_skip {r : ErrRec} {s : State} (hk : r.kind = .unsupportedInstruction)
    (hp : s.policy = some .skip) : raise r s = { s with log := s.log ++ [r], uCount := s.uCount + 1 } := by
  simp [raise, isSkipped, policyInForce, hk, hp]

/-- Under `ABORT` it is also `ERR` and halts the run (R201). -/
theorem raise_unsupported_of_abort {r : ErrRec} {s : State} (hk : r.kind = .unsupportedInstruction)
    (hp : s.policy = some .abort) :
    raise r s = { s with log := s.log ++ [r], uCount := s.uCount + 1, err := some r, run := .halted } := by
  simp [raise, isSkipped, policyInForce, hk, hp]

/-! ### The forms -/

theorem immRmLatches_eq (start : Nat) (b1 : Byte) (w : BitVec 1) (ext : BitVec 3) (rm : Rm) (v : Int) :
    immRmLatches start b1 w ext rm v =
      modrmFields ext rm { latchedLeading start b1 .immRm with w := some w, imm := some v } := by
  rw [immRmLatches, latchedModrm_eq ext rm _ rfl rfl]
  rfl

/-- Settles O33: each of the four completes, and its latches are the spec's fields. -/
theorem registerMemoryMovCompletes : Obligations.RegisterMemoryMovCompletes := by
  unfold Obligations.RegisterMemoryMovCompletes
  intro reg rm s hw hok fields
  have hfields (b1 : Byte) (d w : BitVec 1) : fields b1 d w = rmRegLatches s.cur b1 d w reg rm :=
    (rmRegLatches_eq ..).symm
  have hi : decide rm.WellFormed = true := decide_eq_true hw
  simp only [hfields]
  exact ⟨exec_mov_accepted hi rfl hok, exec_mov_accepted hi rfl hok, exec_mov_accepted hi rfl hok,
    exec_mov_accepted hi rfl hok⟩

/-- Settles O34: each of the two completes, the machine's sign extension being two's complement. -/
theorem immediateToRmMovCompletes : Obligations.ImmediateToRmMovCompletes := by
  unfold Obligations.ImmediateToRmMovCompletes
  intro ext rm v u s hw hok fields
  have hbyte := exec_mov_accepted (i := .movRm8Imm8 ext rm v) (decide_eq_true hw) rfl hok
  have hword := exec_mov_accepted (i := .movRm16Imm16 ext rm u) (decide_eq_true hw) rfl hok
  rw [instrLatches, immRmLatches_eq, sext8_eq_toInt] at hbyte
  rw [instrLatches, immRmLatches_eq, sext16_eq_toInt] at hword
  exact ⟨hbyte, hword⟩

/-- Settles O35: each of the two completes. -/
theorem immediateToRegisterMovCompletes : Obligations.ImmediateToRegisterMovCompletes := by
  unfold Obligations.ImmediateToRegisterMovCompletes
  exact fun reg v u s hok => ⟨exec_mov_accepted rfl rfl hok, exec_mov_accepted rfl rfl hok⟩

/-- Settles O36: each of the four completes. -/
theorem accumulatorMovCompletes : Obligations.AccumulatorMovCompletes := by
  unfold Obligations.AccumulatorMovCompletes
  exact fun a s hok => ⟨exec_mov_accepted rfl rfl hok, exec_mov_accepted rfl rfl hok, exec_mov_accepted rfl rfl hok,
    exec_mov_accepted rfl rfl hok⟩

/-- Settles O37: the record is raised after the byte is consumed, and `POLICY` decides what raising it does. -/
theorem unsupportedByteIsRecorded : Obligations.UnsupportedByteIsRecorded := by
  unfold Obligations.UnsupportedByteIsRecorded
  intro b1 s record fields
  have hexec := exec_unsupported b1 s
  exact ⟨fun hp => hexec.trans (congrArg _ (raise_unsupported_of_skip rfl hp)),
    fun hp => hexec.trans (congrArg _ (raise_unsupported_of_abort rfl hp))⟩

end Sys2Proof
end

section
/-!
SUPPORT. The MOV forms from the bytes of the stream: the step runs the instruction whose encoding stands at the cursor, and a stream that ends
inside it halts the run (R202).
-/

namespace Sys2Proof

open Sys2Proof.Machine

/-- Where the bytes of a MOV stand at the cursor and the sink accepts, the step completes it; where the stream ends inside them, the run
halts. -/
theorem step_of_movBytes {i : Instr} {line : String} {s : State} (hr : s.run = .ready) (hw : i.WellFormed)
    (ht : instrText i = some line) :
    (s.holdsNext (encode i) → sinkAnswer s = .ok →
      step s = .next (afterMov (encode i).length (instrLatches s.cur i) line s)) ∧
    (∀ k, 0 < k → k < (encode i).length → s.holdsNext ((encode i).take k) → s.len = s.cur + k →
      ∃ t, step s = .next t ∧ HaltedTruncated s t) := by
  refine ⟨fun h hok => ?_, fun k hpos hk h hlen => ?_⟩
  · rw [stepRunsEncodedInstruction s i hr hw h, exec_mov_accepted hw ht hok, (encoding_statement i hw).1]
  · obtain ⟨_, _, _, t, -, -, -, hstep, -, hrun, hout, -, herr, hlog⟩ :=
      truncatedInstructionHaltsRun i k s hr hw hpos hk h hlen
    exact ⟨t, hstep, hrun, hout, _, rfl, herr, hlog⟩

/-- With fewer than `n` bytes left, `x` stops at its first read group, before it reads a byte of it (R94). -/
def StopsShort {α : Type} (n : Nat) (x : Decoder α) : Prop :=
  ∀ c, c.len - c.cur < n → x c = .error (.truncated n (c.len - c.cur)) c

theorem stopsShort_need (n : Nat) : StopsShort n (need n) := fun _ => need_short

theorem StopsShort.bind {α β : Type} {n : Nat} {x : Decoder α} (hx : StopsShort n x) (f : α → Decoder β) :
    StopsShort n (x >>= f) := fun c hc => Decoder.bind_error (hx c hc)

/-- A stream that ends inside the first read group after the leading byte, whatever stands in that group. -/
theorem halted_of_short {s : State} {b1 : Byte} {n : Nat} (hr : s.run = .ready) (h : s.holdsNext [b1])
    (hx : StopsShort n (readForm b1)) (hlen : s.len < s.cur + 1 + n) : ∃ t, step s = .next t ∧ HaltedTruncated s t := by
  obtain ⟨hl, hb, -⟩ := (Memory.holdsAt_cons ..).1 h
  have hleft : (afterLeading b1 (cursorOf s)).len - (afterLeading b1 (cursorOf s)).cur < n := by
    simp only [afterLeading, cursorOf]
    omega
  obtain ⟨t, ht, hrun, -, hout, -, -, -, herr, hlog⟩ :=
    truncationRecordLocatesInstruction s b1 n _ _ hr hl hb ((fetchInstr_leading (c := cursorOf s) h).trans (hx _ hleft))
  exact ⟨t, ht, hrun, hout, _, rfl, herr, hlog⟩

/-- Settles O39: the two bits of the leading byte choose among the four instructions of the form. -/
theorem stepOfRegisterMemoryMov : Obligations.StepOfRegisterMemoryMov := by
  unfold Obligations.StepOfRegisterMemoryMov
  intro d w reg rm s hr hw b1 bytes width fields
  have hi : decide rm.WellFormed = true := decide_eq_true hw
  have hfields : fields = rmRegLatches s.cur b1 d w reg rm := (rmRegLatches_eq ..).symm
  rw [hfields]
  obtain rfl | rfl := BitVec.eq_zero_or_eq_one d <;> obtain rfl | rfl := BitVec.eq_zero_or_eq_one w
  · exact step_of_movBytes (i := .movRm8R8 reg rm) hr hi rfl
  · exact step_of_movBytes (i := .movRm16R16 reg rm) hr hi rfl
  · exact step_of_movBytes (i := .movR8Rm8 reg rm) hr hi rfl
  · exact step_of_movBytes (i := .movR16Rm16 reg rm) hr hi rfl

/-- Settles O40: the bytes are the encodings of the two instructions of the form. -/
theorem stepOfImmediateToRmMov : Obligations.StepOfImmediateToRmMov := by
  unfold Obligations.StepOfImmediateToRmMov
  intro ext rm v u s hr hw bytes8 bytes16 fields
  have hi : decide rm.WellFormed = true := decide_eq_true hw
  obtain ⟨hbyte, hcut8⟩ := step_of_movBytes (i := .movRm8Imm8 ext rm v) hr hi rfl
  obtain ⟨hword, hcut16⟩ := step_of_movBytes (i := .movRm16Imm16 ext rm u) hr hi rfl
  rw [instrLatches, immRmLatches_eq, sext8_eq_toInt] at hbyte
  rw [instrLatches, immRmLatches_eq, sext16_eq_toInt] at hword
  refine ⟨hbyte, hword, fun k hpos hcut hlen => ?_⟩
  obtain ⟨hk, h⟩ | ⟨hk, h⟩ := hcut
  · exact hcut8 k hpos hk h hlen
  · exact hcut16 k hpos hk h hlen

/-- The bytes of a two-byte quantity that was put together from two bytes. -/
theorem bytesOf_littleEndian (lo hi : Byte) : bytesOf (littleEndian lo hi) = [lo, hi] := by
  simp [bytesOf]

theorem stopsShort_immReg16 (reg : BitVec 3) : StopsShort 2 (readForm (0b10111#5 ++ reg)) := by
  obtain ⟨hform, hwidth, hreg⟩ := leading_immReg16 reg
  rw [readForm, hform, hwidth, hreg]
  exact ((stopsShort_need 2).bind _).bind _

/-- Settles O41: the bytes are the encodings of the two instructions of the form, or end inside the one read group. -/
theorem stepOfImmediateToRegisterMov : Obligations.StepOfImmediateToRegisterMov := by
  unfold Obligations.StepOfImmediateToRegisterMov
  intro reg v lo hi s hr
  rw [← bytesOf_littleEndian lo hi, ← littleEndian_toNat]
  intro fields
  obtain ⟨hbyte, hcut⟩ := step_of_movBytes (i := .movR8Imm8 reg v) hr rfl rfl
  obtain ⟨hword, -⟩ := step_of_movBytes (i := .movR16Imm16 reg (littleEndian lo hi)) hr rfl rfl
  exact ⟨hbyte, hword, hcut 1 Nat.one_pos (Nat.lt_succ_self 1),
    fun h hlen => halted_of_short hr h (stopsShort_immReg16 reg) hlen⟩

theorem stopsShort_accumulator (d w : BitVec 1) : StopsShort 2 (readForm (0b101000#6 ++ d ++ w)) := by
  obtain rfl | rfl := BitVec.eq_zero_or_eq_one d <;> obtain rfl | rfl := BitVec.eq_zero_or_eq_one w <;>
    exact ((stopsShort_need 2).bind _).bind _

/-- Settles O42: the two bits of the leading byte choose among the four instructions of the forms, or the stream ends
inside the address. -/
theorem stepOfAccumulatorMov : Obligations.StepOfAccumulatorMov := by
  unfold Obligations.StepOfAccumulatorMov
  intro d w lo hi s hr
  rw [← bytesOf_littleEndian lo hi, ← littleEndian_toNat]
  intro b1 acc mem fields
  obtain ⟨hal, hax, hmal, hmax⟩ := accumulator_lines (decNat (littleEndian lo hi).toNat)
  refine ⟨?_, fun h hlen => halted_of_short hr h (stopsShort_accumulator d w) hlen⟩
  obtain rfl | rfl := BitVec.eq_zero_or_eq_one d <;> obtain rfl | rfl := BitVec.eq_zero_or_eq_one w
  · exact (step_of_movBytes (i := .movAlMem (littleEndian lo hi)) hr rfl (congrArg some hal)).1
  · exact (step_of_movBytes (i := .movAxMem (littleEndian lo hi)) hr rfl (congrArg some hax)).1
  · exact (step_of_movBytes (i := .movMemAl (littleEndian lo hi)) hr rfl (congrArg some hmal)).1
  · exact (step_of_movBytes (i := .movMemAx (littleEndian lo hi)) hr rfl (congrArg some hmax)).1

/-- Settles O43: the step is the meaning of the byte, whose record's fields are read off. -/
theorem stepOfUnsupportedByte : Obligations.StepOfUnsupportedByte := by
  unfold Obligations.StepOfUnsupportedByte
  intro b1 s hr hb h
  have hstep := stepRunsEncodedInstruction s (.unsupported b1) hr (decide_eq_true hb) h
  refine ⟨_, unsupportedRecord s.cur b1 (s.cur + 1), hstep.trans (exec_unsupported b1 s), rfl, rfl, rfl, rfl, rfl, rfl,
    rfl, rfl, fun hp => ?_, fun hp => ?_⟩
  · rw [raise_unsupported_of_skip rfl (show (consume 1 _ s).policy = _ from hp)]
    exact ⟨hr, rfl⟩
  · rw [raise_unsupported_of_abort rfl (show (consume 1 _ s).policy = _ from hp)]
    exact ⟨rfl, rfl⟩

end Sys2Proof
end

section
/-!
SUPPORT. Noninterference of the decoder (R138): two cursors that stand before the same bytes read the same values and move on equally far,
composed along the formats of R63 to R66 into the whole fetch.
-/

namespace Sys2Proof

open Sys2Proof.Machine

/-- From the indices `k` and `k'` on, the cursors `c` and `c'` have moved equally far, and the same bytes lie ahead of them. -/
structure Abreast (k k' : Nat) (c c' : Cursor) : Prop where
  moved : c.cur + k' = c'.cur + k
  left : c.len - c.cur = c'.len - c'.cur
  ahead : ∀ j, Memory.read c.stream (c.cur + j) = Memory.read c'.stream (c'.cur + j)

section Abreast

variable {k k' : Nat} {c c' : Cursor}

/-- The latches do not matter. -/
theorem Abreast.withLatches (h : Abreast k k' c c') (l l' : Latches) :
    Abreast k k' { c with latches := l } { c' with latches := l' } :=
  ⟨h.moved, h.left, h.ahead⟩

theorem Abreast.next (h : Abreast k k' c c') :
    Abreast k k' { c with cur := c.cur + 1 } { c' with cur := c'.cur + 1 } where
  moved := by have := h.moved; simp only; omega
  left := by have := h.left; simp only; omega
  ahead j := by simpa [Nat.add_assoc] using h.ahead (1 + j)

theorem Abreast.hasMore_iff (h : Abreast k k' c c') : c.cur < c.len ↔ c'.cur < c'.len := by
  have := h.left
  omega

theorem Abreast.read_eq (h : Abreast k k' c c') : Memory.read c.stream c.cur = Memory.read c'.stream c'.cur :=
  h.ahead 0

end Abreast

/-- Two results of one read: the same value or two stops, with the cursors abreast. -/
inductive SameResult (k k' : Nat) {α : Type} : EStateM.Result Stop Cursor α → EStateM.Result Stop Cursor α → Prop
  | ok {d d' : Cursor} (a : α) (h : Abreast k k' d d') : SameResult k k' (.ok a d) (.ok a d')
  | error {d d' : Cursor} {e e' : Stop} (h : Abreast k k' d d') : SameResult k k' (.error e d) (.error e' d')

/-- What `x` reads depends on the bytes ahead only. -/
def ReadsAhead {α : Type} (x : Decoder α) : Prop :=
  ∀ (k k' : Nat) (c c' : Cursor), Abreast k k' c c' → SameResult k k' (x c) (x c')

theorem readsAhead_pure {α : Type} (a : α) : ReadsAhead (pure a : Decoder α) := fun _ _ _ _ h => .ok a h

theorem ReadsAhead.bind {α β : Type} {x : Decoder α} {f : α → Decoder β} (hx : ReadsAhead x)
    (hf : ∀ a, ReadsAhead (f a)) : ReadsAhead (x >>= f) := by
  intro k k' c c' h
  match hxc : x c, hxc' : x c', hx k k' c c' h with
  | _, _, .ok a hd =>
    rw [Decoder.bind_ok hxc, Decoder.bind_ok hxc']
    exact hf a k k' _ _ hd
  | _, _, .error hd =>
    rw [Decoder.bind_error hxc, Decoder.bind_error hxc']
    exact .error hd

theorem readsAhead_latch (g : Latches → Latches) : ReadsAhead (latch g) :=
  fun _ _ _ _ h => .ok () (h.withLatches _ _)

theorem readsAhead_need (n : Nat) : ReadsAhead (need n) := by
  intro k k' c c' h
  obtain hn | hn := Nat.lt_or_ge (c.len - c.cur) n
  · rw [need_short hn, need_short (h.left ▸ hn)]
    exact .error h
  · rw [need_ok hn, need_ok (h.left ▸ hn)]
    exact .ok () h

theorem readsAhead_nextByte : ReadsAhead nextByte := by
  intro k k' c c' h
  by_cases hl : c.cur < c.len
  case neg =>
    rw [nextByte_eq_error.2 ⟨rfl, .inl ⟨Nat.not_lt.mp hl, rfl⟩⟩,
      nextByte_eq_error.2 ⟨rfl, .inl ⟨Nat.not_lt.mp (mt h.hasMore_iff.2 hl), rfl⟩⟩]
    exact .error h
  have hl' := h.hasMore_iff.1 hl
  cases hb : Memory.read c.stream c.cur with
  | some b =>
    rw [nextByte_ok hl hb, nextByte_ok hl' (h.read_eq ▸ hb)]
    exact .ok b h.next
  | none =>
    rw [nextByte_eq_error.2 ⟨rfl, .inr ⟨hl, hb, rfl⟩⟩, nextByte_eq_error.2 ⟨rfl, .inr ⟨hl', h.read_eq ▸ hb, rfl⟩⟩]
    exact .error h

theorem readsAhead_read16 : ReadsAhead read16 :=
  readsAhead_nextByte.bind fun _ => readsAhead_nextByte.bind fun _ => readsAhead_pure _

/-- A read group: `need n`, its bytes, its latches. -/
theorem ReadsAhead.group {α β : Type} {x : Decoder α} (hx : ReadsAhead x) (n : Nat) (g : α → Latches → Latches)
    (r : α → β) : ReadsAhead (do need n; let v ← x; latch (g v); return r v) :=
  (readsAhead_need n).bind fun _ => hx.bind fun _ => (readsAhead_latch _).bind fun _ => readsAhead_pure _

theorem readsAhead_readAddress : ReadsAhead readAddress := readsAhead_read16.group 2 _ id

theorem readsAhead_readImm8 (interp : Byte → Int) : ReadsAhead (readImm8 interp) := readsAhead_nextByte.group 1 _ id

theorem readsAhead_readImm16 (interp : U16 → Int) : ReadsAhead (readImm16 interp) := readsAhead_read16.group 2 _ id

/-! ### The forms -/

theorem readsAhead_readRmTail (mod : BitVec 2) (rm : BitVec 3) : ReadsAhead (readRmTail mod rm) := by
  unfold readRmTail
  split
  · exact readsAhead_pure _
  split
  · split
    · exact readsAhead_readAddress.bind fun _ => readsAhead_pure _
    · exact readsAhead_pure _
  split
  · exact ReadsAhead.bind (readsAhead_nextByte.group 1 _ id) fun _ => readsAhead_pure _
  · exact ReadsAhead.bind (readsAhead_read16.group 2 _ id) fun _ => readsAhead_pure _

theorem readsAhead_parseRm : ReadsAhead parseRm :=
  ReadsAhead.bind (readsAhead_nextByte.group 1 _ _) fun (mod, _, rm) =>
    (readsAhead_readRmTail mod rm).bind fun _ => readsAhead_pure _

theorem readsAhead_readImmRm (w : BitVec 1) : ReadsAhead (readImmRm w) :=
  readsAhead_parseRm.bind fun (_, _) => by
    cases widthOf w with
    | byte => exact (readsAhead_readImm8 _).bind fun _ => readsAhead_pure _
    | word => exact (readsAhead_readImm16 _).bind fun _ => readsAhead_pure _

theorem readsAhead_readImmReg (w : BitVec 1) (reg : BitVec 3) : ReadsAhead (readImmReg w reg) := by
  unfold readImmReg
  cases widthOf w with
  | byte => exact (readsAhead_readImm8 _).bind fun _ => readsAhead_pure _
  | word => exact (readsAhead_readImm16 _).bind fun _ => readsAhead_pure _

theorem readsAhead_readForm (b1 : Byte) : ReadsAhead (readForm b1) := by
  unfold readForm
  cases formOf b1 with
  | rmReg => exact readsAhead_parseRm.bind fun (_, _) => readsAhead_pure _
  | immRm => exact readsAhead_readImmRm _
  | immReg => exact readsAhead_readImmReg _ _
  | memAcc => exact readsAhead_readAddress.bind fun _ => readsAhead_pure _
  | accMem => exact readsAhead_readAddress.bind fun _ => readsAhead_pure _
  | unsupported => exact readsAhead_pure _

/-- The index a fetch begins at reaches the latches only. -/
theorem readsAhead_fetchInstr : ReadsAhead fetchInstr := by
  intro k k' c c' h
  unfold fetchInstr
  rw [Decoder.bind_ok (cursorIndex_apply c), Decoder.bind_ok (latch_apply _ c), Decoder.bind_ok (cursorIndex_apply c'),
    Decoder.bind_ok (latch_apply _ c')]
  exact readsAhead_nextByte.bind (fun b1 => (readsAhead_latch _).bind fun _ => readsAhead_readForm b1)
    _ _ _ _ (h.withLatches _ _)

/-! ### The step -/

/-- A well-formed instruction's meaning writes the instruction's line, if it has one, to a sink that accepts it. -/
theorem out_exec {i : Instr} {s t : State} (hw : i.WellFormed) (hok : sinkAnswer s = .ok) (h : exec i s = .next t) :
    t.out = s.out ++ (instrText i).toList := by
  cases ht : instrText i with
  | some line =>
    cases h.symm.trans (exec_mov_accepted hw ht hok)
    rfl
  | none =>
    cases i with
    | unsupported b1 =>
      cases h
      exact (List.append_nil _).symm
    | movRm8R8 | movRm16R16 | movR8Rm8 | movR16Rm16 | movRm8Imm8 | movRm16Imm16 | movR8Imm8 | movR16Imm16 | movAlMem
      | movAxMem | movMemAl | movMemAx => cases ht

theorem cur_exec {i : Instr} {s t : State} (hw : i.WellFormed) (h : exec i s = .next t) :
    t.cur = s.cur + (encode i).length := by
  obtain ⟨t', ht', hcursor⟩ := cursorOf_exec hw s
  cases h.symm.trans ht'
  exact congrArg Cursor.cur hcursor

/-- A stopped read that has a next state leaves the cursor where the read stopped, and writes no line. -/
theorem stopped_eq_next {why : Stop} {c : Cursor} {s t : State} (h : stopped why c s = .next t) :
    t.cur = c.cur ∧ t.out = s.out := by
  cases why with
  | truncated | cursorOverrun => cases h; exact ⟨rfl, rfl⟩
  | unbacked addr => cases h

/-- Settles O19: at the end of the stream neither step reads; otherwise the two fetches read the same instruction or stop equally far
on. -/
theorem decodeDependsOnlyOnComingBytes : Obligations.DecodeDependsOnlyOnComingBytes := by
  unfold Obligations.DecodeDependsOnlyOnComingBytes
  intro s s' t t' hr hr' hleft hahead hok hok' ht ht'
  have habreast : Abreast s.cur s'.cur (cursorOf s) (cursorOf s') := ⟨Nat.add_comm .., hleft, hahead⟩
  by_cases hl : s.cur < s.len
  case neg =>
    cases ht.symm.trans (step_of_end hr (Nat.not_lt.mp hl))
    cases ht'.symm.trans (step_of_end hr' (Nat.not_lt.mp (mt habreast.hasMore_iff.2 hl)))
    exact ⟨[], 0, by simp⟩
  have hl' : s'.cur < s'.len := habreast.hasMore_iff.1 hl
  match hf : fetchInstr (cursorOf s), hf' : fetchInstr (cursorOf s'), readsAhead_fetchInstr _ _ _ _ habreast with
  | _, _, .ok i _ =>
    have hw := (fetched_of_fetchInstr hf).wellFormed
    rw [step_of_fetch_ok hr hl hf] at ht
    rw [step_of_fetch_ok hr' hl' hf'] at ht'
    exact ⟨(instrText i).toList, (encode i).length, out_exec hw hok ht, out_exec hw hok' ht', cur_exec hw ht,
      cur_exec hw ht'⟩
  | .error _ d, .error _ d', .error hd =>
    have hmono := (stepOnlyMovesForward s t ht).cur_monotonic
    rw [step_of_fetch_error hr hl hf] at ht
    rw [step_of_fetch_error hr' hl' hf'] at ht'
    obtain ⟨hcur, hout⟩ := stopped_eq_next ht
    obtain ⟨hcur', hout'⟩ := stopped_eq_next ht'
    have hmoved := hd.moved
    exact ⟨[], t.cur - s.cur, by simpa using hout, by simpa using hout', by omega, by omega⟩

end Sys2Proof
end

section
/-!
SUPPORT. Decimal text (R160): `dec(n)` spells the digits of `n` in base ten, which makes it a `uint` of the grammar (R170) that reads back
as `n`.
-/

namespace Sys2Proof.Machine

/-! ### The digits -/

theorem toList_digit {d : Nat} (h : d < 10) : (digit d).toList = [Nat.digitChar d] := by
  match d with
  | 0 | 1 | 2 | 3 | 4 | 5 | 6 | 7 | 8 | 9 => simp [digit, Nat.digitChar]

/-- With fuel enough, the text is the library's list of base ten digits. -/
theorem toList_decDigits {fuel n : Nat} (h : n ≤ fuel) : (decDigits fuel n).toList = Nat.toDigits 10 n := by
  induction fuel generalizing n with
  | zero =>
    obtain rfl := Nat.le_zero.1 h
    exact toList_digit (by decide)
  | succ fuel ih =>
    rw [decDigits]
    split
    next hlt => rw [toList_digit hlt, Nat.toDigits_of_lt_base hlt]
    next hge =>
      rw [String.toList_append, ih (by omega), toList_digit (Nat.mod_lt n (by decide)),
        ← Nat.toDigits_of_base_le (by decide) (not_lt.1 hge)]

theorem toList_decNat (n : Nat) : (decNat n).toList = Nat.toDigits 10 n := toList_decDigits le_rfl

/-- The first digit of a positive number is not zero. -/
theorem head?_toDigits_ne_zero {n : Nat} (h : 0 < n) : (Nat.toDigits 10 n).head? ≠ some '0' := by
  induction n using Nat.strongRec with
  | ind n ih =>
    by_cases hlt : n < 10
    · simp [Nat.toDigits_of_lt_base hlt, h.ne']
    · rw [Nat.toDigits_of_base_le (by decide) (not_lt.1 hlt), List.head?_append_of_ne_nil _ Nat.toDigits_ne_nil]
      exact ih (n / 10) (by omega) (by omega)

/-! ### The grammar's numbers -/

/-- A `uint` is one or more digits, the first of them zero only when it is the only one. -/
theorem isUint_iff (t : String) : isUint t = true ↔
    t.toList ≠ [] ∧ (∀ ch ∈ t.toList, ch.isDigit) ∧ (t.toList.head? = some '0' → t.toList = ['0']) := by
  unfold isUint
  split
  next h => simp [h]
  next rest h => simp +contextual [h]
  next c rest hne h => simp [h, show c ≠ '0' from hne]

theorem isUint_decNat (n : Nat) : isUint (decNat n) = true := by
  rw [isUint_iff, toList_decNat]
  refine ⟨Nat.toDigits_ne_nil, fun _ => Nat.isDigit_of_mem_toDigits (by decide) (by decide), fun hzero => ?_⟩
  obtain rfl : n = 0 := Nat.eq_zero_of_not_pos fun hpos => head?_toDigits_ne_zero hpos hzero
  exact Nat.toDigits_zero 10

/-- A minus sign and at once a `uint` is a `value`. -/
theorem isValue_neg (u : String) : isValue ("-" ++ u) = isUint u := by
  simp [isValue, isUint]

theorem isValue_dec (v : Int) : isValue (dec v) = true := by
  cases v with
  | ofNat n => rw [Int.ofNat_eq_natCast, dec_natCast, isValue, isUint_decNat, Bool.true_or]
  | negSucc n => rw [dec, isValue_neg, isUint_decNat]

theorem dec_neg_natCast {n : Nat} (h : 0 < n) : dec (-(n : Int)) = "-" ++ decNat n := by
  cases n with
  | zero => cases h
  | succ m => rfl

theorem isUint_or_neg_of_isValue {t : String} (h : isValue t = true) :
    isUint t = true ∨ ∃ u, isUint u = true ∧ t = "-" ++ u := by
  refine (Bool.or_eq_true_iff.1 h).imp_right fun h => ?_
  split at h
  next rest ht => exact ⟨_, h, String.toList_inj.1 (by simp [ht])⟩
  next => cases h

/-- Settles O46: the text is the list of base ten digits, which the library reads back. -/
theorem decimalTextReadsBack : Obligations.DecimalTextReadsBack := by
  unfold Obligations.DecimalTextReadsBack
  intro n
  refine ⟨isUint_decNat n, ?_, dec_natCast n, dec_neg_natCast⟩
  rw [toList_decNat]
  exact Nat.ofDigitChars_ten_toDigits

end Sys2Proof.Machine
end

section
/-!
SUPPORT. The text of a memory operand with a written displacement (R164, R165).
-/

namespace Sys2Proof.Machine

theorem renderBaseDisp_of_nonneg (b : BitVec 3) {d : Int} (h : 0 ≤ d) :
    renderBaseDisp b d = "[" ++ baseExpression b ++ " + " ++ dec d ++ "]" := by
  rw [renderBaseDisp, if_pos h, magnitude, ← dec_natCast, Int.natAbs_of_nonneg h]

theorem renderBaseDisp_of_neg (b : BitVec 3) {d : Int} (h : d < 0) :
    renderBaseDisp b d = "[" ++ baseExpression b ++ " - " ++ dec (-d) ++ "]" := by
  rw [renderBaseDisp, if_neg (not_le.2 h), magnitude, ← dec_natCast, Int.ofNat_natAbs_of_nonpos h.le]

theorem renderOp_disp8_zero (b : BitVec 3) : renderOp (.memBase .disp8 b 0) = "[" ++ baseExpression b ++ "]" := rfl

theorem renderOp_disp8_of_ne_zero (b : BitVec 3) {d : Int} (h : d ≠ 0) :
    renderOp (.memBase .disp8 b d) = renderBaseDisp b d := if_neg h

/-- Settles O47: a zero displacement is left out, any other is written by its sign. -/
theorem disp8TextOmitsZero : Obligations.Disp8TextOmitsZero := by
  unfold Obligations.Disp8TextOmitsZero
  exact fun b d => ⟨fun h => h ▸ renderOp_disp8_zero b,
    fun h => (renderOp_disp8_of_ne_zero b h.ne').trans (renderBaseDisp_of_nonneg b h.le),
    fun h => (renderOp_disp8_of_ne_zero b h.ne).trans (renderBaseDisp_of_neg b h)⟩

/-- Settles O48: every displacement is written by its sign. -/
theorem disp16TextKeepsZero : Obligations.Disp16TextKeepsZero := by
  unfold Obligations.Disp16TextKeepsZero
  exact fun b d => ⟨renderBaseDisp_of_nonneg b, renderBaseDisp_of_neg b⟩

end Sys2Proof.Machine
end

section
/-!
SUPPORT. The grammar of an emitted line (R170) and its characters (R161): the text of each operand is in the grammar, the operands of every
MOV are a pair the grammar has a line for, and the grammar's lines are made of the permitted characters.
-/

namespace Sys2Proof.Machine

/-! ### The operands -/

theorem isReg_registerName (w : Width) (code : BitVec 3) : IsReg (registerName w code) := by
  rw [registerName_eq_getElem]
  exact (Vector.mem_toList_iff ..).2 (Vector.getElem_mem _)

theorem baseExpression_mem (rm : BitVec 3) : baseExpression rm ∈ grammarBases :=
  (Vector.mem_toList_iff ..).2 (Vector.getElem_mem (xs := baseRom) rm.isLt)

theorem isMem_renderBaseDisp (b : BitVec 3) (d : Int) : IsMem (renderBaseDisp b d) := by
  refine .inr (.inl ⟨_, baseExpression_mem b, _, isUint_decNat (magnitude d), ?_⟩)
  unfold renderBaseDisp
  split
  · exact .inl rfl
  · exact .inr rfl

theorem isMem_renderOp {o : Operand} (h : operandIsMemory o = true) : IsMem (renderOp o) := by
  cases o with
  | reg w code => cases h
  | imm w v => cases h
  | memDirect a => exact .inr (.inr ⟨_, isUint_decNat a.toNat, rfl⟩)
  | memBase cls b d =>
    have hbase : IsMem ("[" ++ baseExpression b ++ "]") := .inl ⟨_, baseExpression_mem b, rfl⟩
    cases cls with
    | noDisp => exact hbase
    | disp16 => exact isMem_renderBaseDisp b d
    | disp8 =>
      obtain rfl | hd := eq_or_ne d 0
      · rw [renderOp_disp8_zero]
        exact hbase
      · rw [renderOp_disp8_of_ne_zero b hd]
        exact isMem_renderBaseDisp b d

/-! ### The line -/

/-- The destination, source and size keyword of a MOV: at most one operand is memory, and the keyword stands exactly between memory and an
immediate. -/
inductive MovOperands : Operand → Operand → Option Width → Prop where
  | regReg (w v : Width) (d s : BitVec 3) : MovOperands (.reg w d) (.reg v s) none
  | regMem (w : Width) (d : BitVec 3) {m : Operand} (hm : operandIsMemory m = true) : MovOperands (.reg w d) m none
  | regImm (w v : Width) (d : BitVec 3) (n : Int) : MovOperands (.reg w d) (.imm v n) none
  | memReg {m : Operand} (hm : operandIsMemory m = true) (w : Width) (s : BitVec 3) : MovOperands m (.reg w s) none
  | memImm {m : Operand} (hm : operandIsMemory m = true) (kw v : Width) (n : Int) : MovOperands m (.imm v n) (some kw)

theorem isLine_render {dst src : Operand} {kw : Option Width} (h : MovOperands dst src kw) :
    IsLine (render { mnemonic := "mov", dst := dst, src := src, sizeKw := kw }) := by
  cases h with
  | regReg w v d s => exact .inl ⟨_, _, isReg_registerName w d, isReg_registerName v s, render_mov_plain ..⟩
  | regMem w d hm => exact .inr (.inl ⟨_, _, isReg_registerName w d, isMem_renderOp hm, render_mov_plain ..⟩)
  | regImm w v d n =>
    exact .inr (.inr (.inl ⟨_, _, isReg_registerName w d, isValue_dec n, render_mov_plain ..⟩))
  | memReg hm w s =>
    exact .inr (.inr (.inr (.inl ⟨_, _, isMem_renderOp hm, isReg_registerName w s, render_mov_plain ..⟩)))
  | memImm hm kw v n =>
    refine .inr (.inr (.inr (.inr ⟨_, _, isMem_renderOp hm, isValue_dec n, ?_⟩)))
    rw [render_mov, String.append_assoc (s₂ := ", ")]
    cases kw with
    | byte => exact .inl rfl
    | word => exact .inr rfl

/-! ### Every MOV -/

theorem movOperands_rm_reg (w : Width) (rm : Rm) (code : BitVec 3) : MovOperands (rmOperand w rm) (.reg w code) none := by
  cases rm with
  | reg d => exact .regReg w w d code
  | noDisp | direct | disp8 | disp16 => exact .memReg rfl w code

theorem movOperands_reg_rm (w : Width) (code : BitVec 3) (rm : Rm) : MovOperands (.reg w code) (rmOperand w rm) none := by
  cases rm with
  | reg s => exact .regReg w w code s
  | noDisp | direct | disp8 | disp16 => exact .regMem w code rfl

theorem movOperands_rm_imm (w : Width) (rm : Rm) (n : Int) :
    MovOperands (rmOperand w rm) (.imm w n) (sizeKeywordFor w (rmOperand w rm)) := by
  cases rm with
  | reg d => exact .regImm w w d n
  | noDisp | direct | disp8 | disp16 => exact .memImm rfl w w n

/-- The meaning of a MOV, well-formed or not, completes it with a record of such operands. -/
theorem exec_completes_mov {i : Instr} (h : (instrText i).isSome) (s : State) :
    ∃ n l dst src kw, MovOperands dst src kw ∧
      exec i s = .next (complete n l { mnemonic := "mov", dst := dst, src := src, sizeKw := kw } s) := by
  cases i with
  | unsupported b1 => cases h
  | movRm8R8 reg rm | movRm16R16 reg rm => exact ⟨_, _, _, _, _, movOperands_rm_reg _ rm reg, rfl⟩
  | movR8Rm8 reg rm | movR16Rm16 reg rm => exact ⟨_, _, _, _, _, movOperands_reg_rm _ reg rm, rfl⟩
  | movRm8Imm8 ext rm v | movRm16Imm16 ext rm v => exact ⟨_, _, _, _, _, movOperands_rm_imm _ rm _, rfl⟩
  | movR8Imm8 reg v | movR16Imm16 reg v => exact ⟨_, _, _, _, _, .regImm _ _ reg _, rfl⟩
  | movAlMem a | movAxMem a => exact ⟨_, _, _, _, _, .regMem _ _ (m := .memDirect a) rfl, rfl⟩
  | movMemAl a | movMemAx a => exact ⟨_, _, _, _, _, .memReg (m := .memDirect a) rfl _ _, rfl⟩

/-! ### The characters -/

/-- Made of the characters of R161 only. -/
def Permitted (t : String) : Prop := ∀ ch ∈ t.toList, ch ∈ lineCharacters

@[simp] theorem permitted_append (t u : String) : Permitted (t ++ u) ↔ Permitted t ∧ Permitted u := by
  simp only [Permitted, String.toList_append, List.forall_mem_append]

theorem digit_mem_lineCharacters {ch : Char} (h : ch.isDigit = true) : ch ∈ lineCharacters := by
  obtain ⟨hlo, hhi⟩ := Char.isDigit_iff_toNat.1 h
  rw [← Char.ofNat_toNat ch]
  generalize ch.toNat = n at hlo hhi
  have hn : n ∈ List.range' 48 10 := List.mem_range'_1.2 ⟨hlo, Nat.lt_succ_of_le hhi⟩
  revert n
  decide

theorem permitted_of_isUint {t : String} (h : isUint t = true) : Permitted t :=
  fun ch hch => digit_mem_lineCharacters (((isUint_iff t).1 h).2.1 ch hch)

theorem permitted_of_mem_grammarRegs : ∀ t ∈ grammarRegs, Permitted t := by
  simp [grammarRegs, Permitted, lineCharacters]

theorem permitted_of_mem_grammarBases : ∀ t ∈ grammarBases, Permitted t := by
  simp [grammarBases, Permitted, lineCharacters]

/-- The terminals of a line other than registers and bases. -/
theorem permitted_punctuation : Permitted "mov " ∧ Permitted ", " ∧ Permitted ", byte " ∧ Permitted ", word " ∧
    Permitted "[" ∧ Permitted "]" ∧ Permitted " + " ∧ Permitted " - " ∧ Permitted "-" := by
  simp [Permitted, lineCharacters]

theorem permitted_of_isValue {t : String} (h : isValue t = true) : Permitted t := by
  obtain h | ⟨u, hu, rfl⟩ := isUint_or_neg_of_isValue h
  · exact permitted_of_isUint h
  · simp [permitted_punctuation, permitted_of_isUint hu]

theorem permitted_of_isMem {t : String} (h : IsMem t) : Permitted t := by
  obtain ⟨b, hb, rfl⟩ | ⟨b, hb, u, hu, rfl | rfl⟩ | ⟨u, hu, rfl⟩ := h
  · simp [permitted_punctuation, permitted_of_mem_grammarBases b hb]
  · simp [permitted_punctuation, permitted_of_mem_grammarBases b hb, permitted_of_isUint hu]
  · simp [permitted_punctuation, permitted_of_mem_grammarBases b hb, permitted_of_isUint hu]
  · simp [permitted_punctuation, permitted_of_isUint hu]

theorem permitted_of_isLine {t : String} (h : IsLine t) : Permitted t := by
  obtain ⟨d, r, hd, hr, rfl⟩ | ⟨d, m, hd, hm, rfl⟩ | ⟨d, v, hd, hv, rfl⟩ | ⟨m, r, hm, hr, rfl⟩ |
    ⟨m, v, hm, hv, rfl | rfl⟩ := h
  · simp [permitted_punctuation, permitted_of_mem_grammarRegs d hd, permitted_of_mem_grammarRegs r hr]
  · simp [permitted_punctuation, permitted_of_mem_grammarRegs d hd, permitted_of_isMem hm]
  · simp [permitted_punctuation, permitted_of_mem_grammarRegs d hd, permitted_of_isValue hv]
  · simp [permitted_punctuation, permitted_of_isMem hm, permitted_of_mem_grammarRegs r hr]
  · simp [permitted_punctuation, permitted_of_isMem hm, permitted_of_isValue hv]
  · simp [permitted_punctuation, permitted_of_isMem hm, permitted_of_isValue hv]

/-- Settles O49: the sink accepts the line of a record the grammar has a line for, and the grammar is made of the permitted
characters. -/
theorem everyLineIsInTheGrammar : Obligations.EveryLineIsInTheGrammar := by
  unfold Obligations.EveryLineIsInTheGrammar
  intro i s hi hok
  obtain ⟨n, l, dst, src, kw, hoperands, hexec⟩ := exec_completes_mov hi s
  rw [complete_eq_afterMov hok] at hexec
  have hline := isLine_render hoperands
  exact ⟨_, _, hexec, rfl, hline, permitted_of_isLine hline⟩

end Sys2Proof.Machine
end

section
/-!
SUPPORT. What one step of the loop does, as the host sees it (R181, R207), and the runs that follow from it: every run ends within the bound of
R243, a stream of MOVs is decoded whole, and skipped bytes are recorded one by one.
-/

namespace Sys2Proof.Machine

/-! ### One step -/

/-- Settles O20: of the branches of the loop, the one where the fetch goes on. -/
theorem stepRunsDecodedInstruction : Obligations.StepRunsDecodedInstruction := by
  unfold Obligations.StepRunsDecodedInstruction
  exact fun s i c hr hl hf => step_of_fetch_ok hr hl hf

/-- Settles O23: of the branches of the loop, the one where no byte is left. -/
theorem endOfStreamEndsRun : Obligations.EndOfStreamEndsRun := by
  unfold Obligations.EndOfStreamEndsRun
  exact fun s hr hend => step_of_end hr hend.ge

theorem State.Inv.err_eq_none {s : State} (h : s.Inv) (hr : s.run = .ready) : s.err = none :=
  not_not.1 (mt h.halted_iff_err.2 (by simp [hr]))

/-- Settles O24: one outcome for each thing a step can do, the sink deciding between the line and the error. -/
theorem stepDoesExactlyOneThing : Obligations.StepDoesExactlyOneThing := by
  unfold Obligations.StepDoesExactlyOneThing
  intro s t hs hr hstep
  have herr := hs.err_eq_none hr
  cases (step_eq_next hstep).2 with
  | ended => exact .inl ⟨rfl, rfl, rfl, herr, rfl⟩
  | mov n hpos _ l r =>
    have hmoved : s.cur < s.cur + n := Nat.lt_add_of_pos_right hpos
    cases ha : sinkAnswer s with
    | ok =>
      rw [complete_ok ha]
      exact .inr (.inl ⟨hr, ⟨_, rfl⟩, rfl, herr, hmoved, rfl⟩)
    | fail =>
      rw [complete_fail ha]
      exact .inr (.inr ⟨_, rfl, rfl, hmoved, .inl ⟨rfl, rfl⟩⟩)
  | unsupported =>
    refine .inr (.inr ⟨_, rfl, rfl, Nat.lt_succ_self _, ?_⟩)
    cases hp : policyInForce s with
    | skip =>
      have hskip : isSkipped .unsupportedInstruction s = true := (isSkipped_eq ..).2 ⟨rfl, hp⟩
      exact .inr ⟨(if_pos hskip).trans hr, (if_pos hskip).trans herr, rfl, rfl, rfl⟩
    | abort =>
      have hskip : ¬ isSkipped .unsupportedInstruction s = true := by simp [isSkipped, hp]
      exact .inl ⟨if_neg hskip, if_neg hskip⟩
  | truncated _ hc => exact .inr (.inr ⟨_, rfl, rfl, hc.cur_le, .inl ⟨rfl, rfl⟩⟩)

/-! ### Runs -/

@[simp] theorem runSteps_zero (s : State) : runSteps 0 s = s := rfl

theorem runSteps_succ {s t : State} (h : step s = .next t) (n : Nat) : runSteps (n + 1) s = runSteps n t := by
  simp [runSteps, (step_eq_next h).1, h]

theorem runSteps_of_not_ready {s : State} (h : s.run ≠ .ready) (n : Nat) : runSteps n s = s := by
  cases n <;> simp [runSteps, h]

/-- A step that does not end the run moves the cursor forward. -/
theorem ended_or_cur_lt {s t : State} (hs : s.Inv) (hr : s.run = .ready) (h : step s = .next t) :
    t.ended = true ∨ t.run = .ready ∧ s.cur < t.cur := by
  obtain ⟨hdone, -⟩ | ⟨hready, -, -, -, hcur, -⟩ | ⟨r, -, -, hcur, ⟨hhalted, -⟩ | ⟨hready, -⟩⟩ :=
    stepDoesExactlyOneThing s t hs hr h
  · exact .inl (by simp [State.ended, hdone])
  · exact .inr ⟨hready, hcur⟩
  · exact .inl (by simp [State.ended, hhalted])
  · exact .inr ⟨hready, hcur⟩

theorem not_ready_of_ended {s : State} (h : s.ended = true) : s.run ≠ .ready := by
  intro hr
  simp [State.ended, hr] at h

/-- More steps than bytes are left end the run. -/
theorem ended_runSteps {n : Nat} {s : State} (hs : s.Inv) (hr : s.run = .ready) (hn : s.len - s.cur < n) :
    (runSteps n s).ended = true := by
  induction n generalizing s with
  | zero => exact absurd hn (Nat.not_lt_zero _)
  | succ n ih =>
    obtain ⟨t, ht⟩ := step_next_of_backed hr hs.stream_backed
    rw [runSteps_succ ht]
    obtain hended | ⟨hready, hcur⟩ := ended_or_cur_lt hs hr ht
    · rwa [runSteps_of_not_ready (not_ready_of_ended hended)]
    · have hinv := stepKeepsInvariant s t hs ht
      have hlen := (stepOnlyMovesForward s t ht).len_same
      have hfit := hinv.cur_le_len
      exact ih hinv hready (by omega)

/-- Settles O30: each step that does not end the run uses up a byte at least. -/
theorem runEndsWithinStepBound : Obligations.RunEndsWithinStepBound := by
  unfold Obligations.RunEndsWithinStepBound
  exact fun s hs hr => ended_runSteps hs hr (Nat.lt_succ_self _)

end Sys2Proof.Machine

namespace Sys2Proof

open Sys2Proof.Machine

/-! ### A stream of MOVs -/

/-- The state after the MOVs `is`, each line accepted, and the end of the stream. -/
def afterMovs (is : List Instr) (answers : List SinkAnswer) (s : State) : State :=
  { s with
    cur := s.len, run := .done, out := s.out ++ is.filterMap instrText, latches := Latches.empty,
    sinkAnswers := answers, sinkSeq := s.sinkSeq + is.length }

theorem afterMovs_cons {i : Instr} {line : String} (ht : instrText i = some line) (is : List Instr)
    (answers : List SinkAnswer) (n : Nat) (l : Latches) (s : State) :
    afterMovs is answers (afterMov n l line s) = afterMovs (i :: is) answers s := by
  simp [afterMovs, afterMov, ht, Nat.add_assoc, Nat.add_comm 1]

/-- The run over the encodings of MOVs at the end of the stream. -/
theorem runSteps_movs {is : List Instr} {s : State} {answers : List SinkAnswer}
    (hmov : ∀ i ∈ is, i.WellFormed ∧ (instrText i).isSome) (hr : s.run = .ready)
    (h : s.holdsNext (is.flatMap encode)) (hlen : s.len = s.cur + (is.flatMap encode).length)
    (hsink : s.sinkAnswers = List.replicate is.length .ok ++ answers) :
    runSteps (is.length + 1) s = afterMovs is answers s := by
  induction is generalizing s with
  | nil =>
    rw [List.length_nil, runSteps_succ (step_of_end hr hlen.le), runSteps_zero]
    simp only [List.length_nil, List.replicate_zero, List.nil_append, List.flatMap_nil, Nat.add_zero] at hsink hlen
    simp [afterMovs, endRun, hlen, hsink]
  | cons i is ih =>
    obtain ⟨⟨hw, hi⟩, hmovs⟩ := List.forall_mem_cons.1 hmov
    obtain ⟨line, ht⟩ := Option.isSome_iff_exists.1 hi
    obtain ⟨hhead, htail⟩ := (Memory.holdsAt_append ..).1 h
    have hok : sinkAnswer s = .ok := by simp [sinkAnswer, hsink, List.replicate_succ]
    have hstep := (step_of_movBytes hr hw ht).1 hhead hok
    rw [List.length_cons, runSteps_succ hstep, ← afterMovs_cons ht]
    refine ih hmovs hr htail ?_ ?_
    · simpa [afterMov, Nat.add_assoc] using hlen
    · simp [afterMov, hsink, List.replicate_succ]

/-- Settles O31: one accepted line for each MOV, then the end of the stream. -/
theorem streamOfMovsIsDecodedWhole : Obligations.StreamOfMovsIsDecodedWhole := by
  unfold Obligations.StreamOfMovsIsDecodedWhole
  exact fun is s answers hmov hr h hlen hsink => runSteps_movs hmov hr h hlen hsink

/-! ### Skipped bytes -/

/-- The records of the unsupported bytes `bs`, the first at index `start`. -/
def skipRecords (start : Nat) (bs : List Byte) : List ErrRec :=
  bs.mapIdx fun k b => unsupportedRecord (start + k) b (start + k + 1)

theorem skipRecords_cons (start : Nat) (b : Byte) (bs : List Byte) :
    skipRecords start (b :: bs) = skipRecords start [b] ++ skipRecords (start + 1) bs := by
  simp [skipRecords, List.mapIdx_cons, Nat.add_assoc, Nat.add_comm 1]

/-- The state after the unsupported bytes `bs` under `SKIP`, the latches being `l`. -/
def afterSkips (bs : List Byte) (l : Latches) (s : State) : State :=
  { s with
    cur := s.cur + bs.length, latches := l, log := s.log ++ skipRecords s.cur bs, uCount := s.uCount + bs.length }

theorem afterSkips_cons (b : Byte) (bs : List Byte) (l l' : Latches) (s : State) :
    afterSkips bs l (afterSkips [b] l' s) = afterSkips (b :: bs) l s := by
  simp [afterSkips, skipRecords_cons s.cur b bs, Nat.add_assoc, Nat.add_comm 1]

theorem step_of_skippedByte {b : Byte} {s : State} (hb : ¬ SupportedByte b) (hr : s.run = .ready)
    (hp : s.policy = some .skip) (h : s.holdsNext [b]) :
    step s = .next (afterSkips [b] (latchedLeading s.cur b .unsupported) s) :=
  (stepRunsEncodedInstruction s (.unsupported b) hr (decide_eq_true hb) h).trans
    ((unsupportedByteIsRecorded b s).1 hp)

/-- The run over unsupported bytes under `SKIP`; its last byte decides the latches. -/
theorem runSteps_skippedBytes {bs : List Byte} {s : State} (hbs : ∀ b ∈ bs, ¬ SupportedByte b) (hr : s.run = .ready)
    (hp : s.policy = some .skip) (h : s.holdsNext bs) : ∃ l, runSteps bs.length s = afterSkips bs l s := by
  induction bs generalizing s with
  | nil => exact ⟨s.latches, by simp [afterSkips, skipRecords]⟩
  | cons b bs ih =>
    obtain ⟨hb, hbs⟩ := List.forall_mem_cons.1 hbs
    obtain ⟨hhead, htail⟩ := (Memory.holdsAt_append (as := [b]) ..).1 h
    have hstep := step_of_skippedByte hb hr hp hhead
    obtain ⟨l, hl⟩ := ih (s := afterSkips [b] (latchedLeading s.cur b .unsupported) s) hbs hr hp htail
    exact ⟨l, by rw [List.length_cons, runSteps_succ hstep, hl, afterSkips_cons]⟩

/-- Settles O32: the fields of the state after the skipped bytes are read off. -/
theorem skippedBytesAreEachRecorded : Obligations.SkippedBytesAreEachRecorded := by
  unfold Obligations.SkippedBytesAreEachRecorded
  intro bs s hbs hr hp h
  obtain ⟨l, hl⟩ := runSteps_skippedBytes hbs hr hp h
  rw [hl]
  exact ⟨hr, rfl, rfl, rfl, rfl, rfl⟩

/-! ### A refused line -/

@[simp] theorem latchedModrm_start (reg : BitVec 3) (rm : Rm) (l : Latches) : (latchedModrm reg rm l).start = l.start := by
  cases rm <;> rfl

@[simp] theorem latchedModrm_b1 (reg : BitVec 3) (rm : Rm) (l : Latches) : (latchedModrm reg rm l).b1 = l.b1 := by
  cases rm <;> rfl

/-- The latch `START` holds the index of the leading byte. -/
@[simp] theorem instrLatches_start (start : Nat) (i : Instr) : (instrLatches start i).start = some start := by
  cases i with
  | movRm8R8 | movRm16R16 | movR8Rm8 | movR16Rm16 | movRm8Imm8 | movRm16Imm16 => exact latchedModrm_start ..
  | movR8Imm8 | movR16Imm16 | movAlMem | movAxMem | movMemAl | movMemAx | unsupported => rfl

/-- The latch `B1` holds the leading byte. -/
@[simp] theorem instrLatches_b1 (start : Nat) (i : Instr) : (instrLatches start i).b1 = (encode i).head? := by
  cases i with
  | movRm8R8 | movRm16R16 | movR8Rm8 | movR16Rm16 | movRm8Imm8 | movRm16Imm16 => exact latchedModrm_b1 ..
  | movR8Imm8 | movR16Imm16 | movAlMem | movAxMem | movMemAl | movMemAx | unsupported => rfl

/-- Settles O38: the MOV is completed, and the record takes `START` and `B1` from its latches. -/
theorem refusedLineHaltsRun : Obligations.RefusedLineHaltsRun := by
  unfold Obligations.RefusedLineHaltsRun
  intro i s hw hi hfail
  obtain ⟨line, ht⟩ := Option.isSome_iff_exists.1 hi
  obtain ⟨r, -, hexec⟩ := exec_mov hw ht s
  rw [complete_fail hfail, instrLatches_start, instrLatches_b1] at hexec
  exact ⟨_, _, hexec, rfl, rfl, rfl, rfl, rfl, rfl, rfl, rfl, rfl, rfl⟩

end Sys2Proof
end

section
/-!
SUPPORT. The contract violation of the ByteCursor (`60_exceptions.md` rules R200, R205, R208): a fatal error's record halts the run, and a read
that stopped at its own cursor leaves the cursor and the latches.
-/

namespace Sys2Proof.Machine

/-- Every error but an `UnsupportedInstruction` is fatal, whatever the policy. -/
theorem raise_of_ne_unsupported {r : ErrRec} (h : r.kind ≠ .unsupportedInstruction) (s : State) :
    raise r s = { s with run := .halted, err := some r, log := s.log ++ [r] } := by
  simp [raise, h]

@[simp] theorem withCursor_cursorOf (s : State) : withCursor (cursorOf s) s = s := rfl

theorem stopped_cursorOverrun (s : State) :
    stopped .cursorOverrun (cursorOf s) s = .next (raise (overrunRecord (cursorOf s)) s) := by
  rw [stopped, withCursor_cursorOf]

/-- Settles O11: the read stops where it began, and its error cannot be skipped. -/
theorem cursorOverrunHaltsMachine : Obligations.CursorOverrunHaltsMachine := by
  unfold Obligations.CursorOverrunHaltsMachine
  intro s hend
  have hfatal : (overrunRecord (cursorOf s)).kind ≠ .unsupportedInstruction := by simp [overrunRecord]
  refine ⟨nextByte_eq_error.2 ⟨rfl, .inl ⟨hend, rfl⟩⟩, ?_⟩
  rw [stopped_cursorOverrun, raise_of_ne_unsupported hfatal]
  rfl

end Sys2Proof.Machine
end
